-- ==== Sys2Proof/Word.lean ====
section
/-! DEFINITION. The value types of the block (spec/00_scope.md R5, R8): unsigned bit vectors of a stated width, bit 0
least significant. -/

namespace Sys2Proof

/-- A byte of DATA: 8 bits (R8, R11). -/
abbrev Byte := BitVec 8

/-- An ECC word or a syndrome: 32 bits (R5 ECC_WIDTH, R12, R13, R45). -/
abbrev Word := BitVec 32

/-- A syndrome half, `even` or `odd`; `odd` is a bit address: 12 bits (R5 HALF_BITS, R46). -/
abbrev Half := BitVec 12

/-- A byte address of the DATA space, 0 to 2047: 11 bits (R28, R82). -/
abbrev DataAddr := BitVec 11

/-- The index of a sub-page, 0 to 3 (R5 N_SUB, R29). -/
abbrev SubIndex := Fin 4

/-- The 512 data bytes of a sub-page (R5 SUB_BYTES). -/
abbrev SubPage := Vector Byte 512

/-- The 2048 data bytes of a page (R5 PAGE_BYTES). -/
abbrev Page := Vector Byte 2048

end Sys2Proof
end

