-- ==== Sys2Proof/Config.lean ====
section
/-! DEFINITION. What is fixed for the block (R5), the type of the configuration the spec leaves open (R6), and the free
values of power-on (R25, R26). The configuration the model runs with is `Sys2Proof.Machine.config`
(Machine/Syndrome.lean), where a repair can reach it. -/

namespace Sys2Proof

/-- PAGE_BYTES (R5): data bytes in one page. -/
abbrev pageBytes : Nat := 2048

/-- N_SUB (R5): sub-pages in one page. -/
abbrev nSub : Nat := 4

/-- SUB_BYTES (R5): data bytes in one sub-page. -/
abbrev subBytes : Nat := 512

/-- SUB_BITS (R5): data bits in one sub-page. -/
abbrev subBits : Nat := 4096

/-- ERASED (R5, R51): the stored-ECC value that marks an erased or unformatted sub-page. -/
abbrev erased : Word := 0xFFFFFFFF#32

/-- VALID_XOR (R5, R48): what `even xor odd` is for a single-bit data error. -/
abbrev validXor : Half := 0xFFF#12

/-- ECC_BYTES (R5): bytes of one stored or one computed ECC. -/
abbrev eccBytes : Nat := 4

/-- SPARE_BYTES (R5): spare bytes of a page. No rule of the block uses it. -/
abbrev spareBytes : Nat := 64

/-- SPARE_BUF_MIN (R5): least size of the host's spare staging buffer. No rule of the block uses it. -/
abbrev spareBufMin : Nat := 80

/-- SPARE_ALIGN (R5, R33): alignment of the host's spare staging buffer. No rule of the block uses it. -/
abbrev spareAlign : Nat := 128

/-- ECC_BYTE_ORDER (R6 (c), R31): how four bytes at ascending addresses form an ECC word. -/
inductive ByteOrder where
  | bigEndian
  | littleEndian
  deriving DecidableEq, Repr

/-- The parameters the spec leaves open (R6), fixed for the life of the model (R21 (b), R121). -/
structure Config where
  /-- OFFSET_BITS (R6 (a), R50, R56). -/
  offsetBits : Nat
  /-- Split (R6 (b), R47): the syndrome's pair (even, odd). -/
  split : Word → Half × Half
  /-- ECC_BYTE_ORDER (R6 (c), R31). -/
  eccByteOrder : ByteOrder
  /-- Gen (R6 (d)): the controller's ECC generator. The block never evaluates it. -/
  gen : Option (SubPage → Word)

/-- FREE VALUE (R25, R26, U1; log entry 1): what the byte of DATA at an address holds after power-on, before anything
has written it. It has no body: nothing can be proved of its value. -/
opaque Config.powerOnByte : Nat → Byte

/-- FREE VALUE (R25, R26, U1; log entry 2): what STORED[i] holds after power-on. -/
opaque Config.powerOnStored : Nat → Word

/-- FREE VALUE (R25, R26, U1; log entry 2): what COMPUTED[i] holds after power-on. -/
opaque Config.powerOnComputed : Nat → Word

end Sys2Proof
end

