-- ==== Sys2Proof/Machine/Codes.lean ====
section
/-! DEFINITION. The codes of formats OUT (R59), PHC (R60) and CMD (R62). -/

namespace Sys2Proof.Machine

/-- PHC `00` (R60). -/
abbrev phIdle : BitVec 2 := 0#2

/-- PHC `01` (R60). -/
abbrev phBusy : BitVec 2 := 1#2

/-- PHC `10` (R60). -/
abbrev phDone : BitVec 2 := 2#2

/-- OUT `00` (R59). -/
abbrev outOk : BitVec 2 := 0#2

/-- OUT `01` (R59). -/
abbrev outCorrected : BitVec 2 := 1#2

/-- OUT `11` (R59). -/
abbrev outUncorrectable : BitVec 2 := 3#2

/-- CMD `00` (R62). -/
abbrev cmdNop : BitVec 2 := 0#2

/-- CMD `01` (R62). -/
abbrev cmdCorrect : BitVec 2 := 1#2

/-- CMD `10` (R62). -/
abbrev cmdReset : BitVec 2 := 2#2

/-- An outcome code read as a signed number and widened to 32 bits (R59): 0, 1 or -1. -/
def outcomeSigned (o : BitVec 2) : BitVec 32 := o.signExtend 32

end Sys2Proof.Machine
end

