-- ==== Sys2Proof/Machine/State.lean ====
section
/-! DEFINITION. The state: the complete list of 10_state.md R10, then the model's own fields (the host's pending moves and
what its reads returned). The reasons a step can stop, and the state after power-on (R25). -/

namespace Sys2Proof.Machine

/-- A log record (R20, R61): the two counts, 3 bits each. -/
structure LogRecord where
  ncorr : BitVec 3
  nunc : BitVec 3
  deriving DecidableEq, Repr

/-- One entry of the schedule (log entry 3): a host transition, or the block's turn. Host commands and block transitions
never coincide (R70). -/
inductive Turn where
  /-- The host presents a CMD code (R62). -/
  | cmd (code : BitVec 2)
  /-- The host writes a byte of DATA (R37, R65 `LDD`). -/
  | ldd (a : DataAddr) (v : Byte)
  /-- The host writes STORED[i] (R37, R65 `LDS`). -/
  | lds (i : SubIndex) (w : Word)
  /-- The host writes COMPUTED[i] (R37, R65 `LDC`). -/
  | ldc (i : SubIndex) (w : Word)
  /-- The host reads a byte of DATA (R37, R65 `RDD`). -/
  | rdd (a : DataAddr)
  /-- The host reads STORED[i] (R37; log entry 18). -/
  | rds (i : SubIndex)
  /-- The host reads COMPUTED[i] (R37; log entry 18). -/
  | rdc (i : SubIndex)
  /-- The host reads (PH, OUTCOME, NCORR, NUNC) (R37, R65 `RDR`). -/
  | rdr
  /-- The host reads SP, in DONE (R87; log entry 23). -/
  | rdsp
  /-- The block takes its enabled transition, if one is enabled (R70, R87). -/
  | block
  deriving DecidableEq, Repr

/-- What a host read returned (log entry 17). -/
inductive Reading where
  | dataByte (a : DataAddr) (v : Byte)
  | storedWord (i : SubIndex) (w : Word)
  | computedWord (i : SubIndex) (w : Word)
  | result (ph outcome : BitVec 2) (ncorr nunc : BitVec 3)
  | pointer (sp : BitVec 3)
  deriving DecidableEq, Repr

/-- The bytes of DATA that something has written since power-on, addresses strictly rising. An unlisted address holds no
value in the list: it reads as the free byte of power-on (log entry 1). -/
abbrev Memory := List Host.Cell

/-- The canonical form: addresses strictly rising, all inside DATA (R28). -/
abbrev Memory.wf (m : Memory) : Prop := m.Pairwise (fun x y => x.1 < y.1) ∧ ∀ c ∈ m, c.1 < pageBytes

/-- The state of the block (R10), and the model's own `schedule` and `hostReads`. -/
structure State where
  /-- DATA (R11). -/
  data : Memory
  /-- STORED (R12). -/
  stored : Vector Word 4
  /-- COMPUTED (R13). -/
  computed : Vector Word 4
  /-- SP, the sub-page pointer (R15). -/
  sp : BitVec 3
  /-- NCORR (R16). -/
  ncorr : BitVec 3
  /-- NUNC (R17). -/
  nunc : BitVec 3
  /-- OUTCOME (R18, R59). -/
  outcome : BitVec 2
  /-- PH, the phase (R19, R60). -/
  ph : BitVec 2
  /-- LOG, oldest record first (R20). -/
  log : List LogRecord
  /-- The model's own: what happens next, oldest first (log entry 3). -/
  schedule : List Turn
  /-- The model's own: what the host's reads returned, oldest first (log entry 17). -/
  hostReads : List Reading
  deriving DecidableEq, Repr

/-- Why the machine stops with a fault. -/
inductive Fault where
  /-- MemRead or MemWrite of an address outside DATA (R30). Raised by a DATAFIX performed with SP of 4 or more; no `step`
  reaches it, since a STEP has SP < 4. Safe: the model stops where the spec gives no effect. -/
  | dataAddressOutOfRange (a : Nat)
  deriving DecidableEq, Repr

/-- Why the model gives an interaction no meaning. -/
inductive Refusal where
  /-- An instruction without a meaning yet; raised by `exec`'s arms alone. Safe. -/
  | notModelled (mnemonic : String)
  /-- CMD code `11` (R63 (d), U2); raised by CMD_RESERVED. Safe. -/
  | reservedCommand
  /-- A host access to DATA, STORED or COMPUTED while PH = BUSY (R37, U3); raised by the host accesses. Safe. -/
  | hostAccessWhileBusy
  /-- A host read of SP outside DONE (R10, R87, R109, U14; log entry 23); raised by that read. Safe. -/
  | pointerReadOutsideDone
  /-- Phase code `11`, never taken (R19, R63 (c), U12); raised by CORRECT and the host's buffer accesses (log entry 7). Safe. -/
  | reservedPhase
  /-- STEP where it is not enabled (R70; log entry 5); raised by STEP. Safe. -/
  | stepNotEnabled
  /-- FINISH where it is not enabled (R87; log entry 5); raised by FINISH. Safe. -/
  | finishNotEnabled
  deriving DecidableEq, Repr

/-- The state after power-on (R25, R26): the control and result registers zero, the buffers free, LOG empty. -/
def State.reset : State :=
  { data := []
    stored := #v[Config.powerOnStored 0, Config.powerOnStored 1, Config.powerOnStored 2, Config.powerOnStored 3]
    computed :=
      #v[Config.powerOnComputed 0, Config.powerOnComputed 1, Config.powerOnComputed 2, Config.powerOnComputed 3]
    sp := 0#3
    ncorr := 0#3
    nunc := 0#3
    outcome := outOk
    ph := phIdle
    log := []
    schedule := []
    hostReads := [] }

end Sys2Proof.Machine
end

