-- ==== Sys2Proof/Machine/Ops.lean ====
section
/-! DEFINITION. The named operations over memory and registers. The block takes no exception and returns from none: it
has no trap, no vector, no saved state (R95, R100, R101), so there is no operation of that kind here. -/

namespace Sys2Proof.Machine

/-- What the list holds at an address: none where nothing has written it since power-on. -/
def Memory.lookup : Memory → Nat → Option Byte
  | [], _ => none
  | (b, v) :: rest, a => if a = b then some v else Memory.lookup rest a

/-- The list after a write, still in canonical form. -/
def Memory.write : Memory → Nat → Byte → Memory
  | [], a, v => [(a, v)]
  | (b, u) :: rest, a, v =>
    if a < b then (a, v) :: (b, u) :: rest
    else if a = b then (a, v) :: rest
    else (b, u) :: Memory.write rest a v

/-- The byte at an address of a memory: an unlisted address reads as its free byte of power-on (R26; log entry 1). -/
def Memory.byteAt (m : Memory) (a : Nat) : Byte := (m.lookup a).getD (Config.powerOnByte a)

/-- DATA[a]. -/
def State.byteAt (s : State) (a : Nat) : Byte := s.data.byteAt a

/-- DATA as 2048 bytes (R11). -/
def State.page (s : State) : Page := Vector.ofFn (fun a : Fin 2048 => s.byteAt a.val)

/-- STORED[i] (R12). -/
def State.storedAt (s : State) (i : SubIndex) : Word := s.stored[i.val]

/-- COMPUTED[i] (R13). -/
def State.computedAt (s : State) (i : SubIndex) : Word := s.computed[i.val]

/-- The register file `x[0..7]` (R14): STORED, then COMPUTED. -/
def State.x (s : State) (k : Fin 8) : Word :=
  if h : k.val < 4 then s.stored[k.val] else s.computed[k.val - 4]'(by omega)

/-- The state with another DATA. -/
def State.setData (s : State) (m : Memory) : State := { s with data := m }

/-- STORED[i] <- w (R37). -/
def State.setStored (s : State) (i : SubIndex) (w : Word) : State := { s with stored := s.stored.set i.val w }

/-- COMPUTED[i] <- w (R37). -/
def State.setComputed (s : State) (i : SubIndex) (w : Word) : State := { s with computed := s.computed.set i.val w }

/-- SP <- v. -/
def State.setSp (s : State) (v : BitVec 3) : State := { s with sp := v }

/-- NCORR <- v. -/
def State.setNcorr (s : State) (v : BitVec 3) : State := { s with ncorr := v }

/-- NUNC <- v. -/
def State.setNunc (s : State) (v : BitVec 3) : State := { s with nunc := v }

/-- OUTCOME <- v. -/
def State.setOutcome (s : State) (v : BitVec 2) : State := { s with outcome := v }

/-- PH <- v. -/
def State.setPh (s : State) (v : BitVec 2) : State := { s with ph := v }

/-- `emit LOG(ncorr, nunc)` for each record given (R9, R20): records are appended, none is removed. -/
def State.emitLog (s : State) (records : List LogRecord) : State := { s with log := s.log ++ records }

/-- The state with another schedule (log entry 3). -/
def State.setSchedule (s : State) (q : List Turn) : State := { s with schedule := q }

/-- What a host read returned is recorded (log entry 17). -/
def State.recordRead (s : State) (r : Reading) : State := { s with hostReads := s.hostReads ++ [r] }

/-- `MemRead(addr, 1)` (R30). -/
def memRead (s : State) (a : Nat) : Except Fault Byte :=
  if a < pageBytes then .ok (s.byteAt a) else .error (.dataAddressOutOfRange a)

/-- `MemWrite(addr, 1, v)` (R30). -/
def memWrite (s : State) (a : Nat) (v : Byte) : Except Fault State :=
  if a < pageBytes then .ok (s.setData (s.data.write a v)) else .error (.dataAddressOutOfRange a)

/-- The control and result registers cleared (R25, R67, R69): SP, NCORR, NUNC, OUTCOME. -/
def State.clearResult (s : State) : State := (((s.setNcorr 0#3).setNunc 0#3).setOutcome outOk).setSp 0#3

/-- SP <- SP + 1 (R70). -/
def State.advanceSp (s : State) : State := s.setSp (s.sp + 1#3)

/-- The next state of an outcome, changed; a stop stays as it is. -/
def onNext (o : Host.Outcome State Fault Refusal) (f : State → State) : Host.Outcome State Fault Refusal :=
  match o with
  | .next t => .next (f t)
  | .fault r => .fault r
  | .refused r => .refused r

end Sys2Proof.Machine
end

