-- ==== Sys2Proof/Machine/Commands.lean ====
section
/-! DEFINITION. The host commands (format CMD): NOP, CORRECT, RESET and the reserved code (R62, R63, R67 to R69). -/

namespace Sys2Proof.Machine

/-- NOP (R62): no command, no effect. -/
def execNop (s : State) : Host.Outcome State Fault Refusal := .next s

/-- CORRECT: accepted in IDLE and DONE (R67); dropped in BUSY, with no state change (R68). -/
def execCorrect (s : State) : Host.Outcome State Fault Refusal :=
  if s.ph = phIdle ∨ s.ph = phDone then .next (s.clearResult.setPh phBusy)
  else if s.ph = phBusy then .next s
  else .refused .reservedPhase

/-- RESET (R69), in any phase: DATA, STORED, COMPUTED and LOG keep their values. -/
def execReset (s : State) : Host.Outcome State Fault Refusal := .next (s.clearResult.setPh phIdle)

/-- CMD code `11` (R63 (d)): refused. -/
def execCmdReserved (_s : State) : Host.Outcome State Fault Refusal := .refused .reservedCommand

end Sys2Proof.Machine
end

