-- ==== Sys2Proof/Syntax.lean ====
section
/-! DEFINITION. The operations of the block: one constructor for each row of spec/opcode_table.json (R1, R62, R65). -/

namespace Sys2Proof

/-- Format SYN (R46): the six fields of a 32-bit syndrome, most significant first. -/
structure Syn where
  /-- Bits 31:24, `even[7:0]`. -/
  el : BitVec 8
  /-- Bits 23:20, in neither half. -/
  u1 : BitVec 4
  /-- Bits 19:16, `even[11:8]`. -/
  eh : BitVec 4
  /-- Bits 15:8, `odd[7:0]`. -/
  ol : BitVec 8
  /-- Bits 7:4, in neither half. -/
  u0 : BitVec 4
  /-- Bits 3:0, `odd[11:8]`. -/
  oh : BitVec 4
  deriving DecidableEq, Repr

/-- The operations of the block. -/
inductive Instr where
  /-- CMD `00`: no command (R62). -/
  | nop
  /-- CMD `01`: start a page correction (R67, R68). -/
  | correct
  /-- CMD `10`: reset the control and result registers (R69). -/
  | reset
  /-- CMD `11`: reserved (R63 (d)). -/
  | cmdReserved
  /-- The block's transition that processes sub-page SP; no code (R70). -/
  | step
  /-- The block's transition that forms the aggregate; no code (R87). -/
  | finish
  /-- Action on an erased sub-page: stored word 0xFFFFFFFF (R76). -/
  | skip
  /-- Action on a zero syndrome (R77). -/
  | clean
  /-- Action on a one-hot syndrome; `bit` is the index of its one bit (R78). -/
  | eccfix (bit : Fin 32)
  /-- Action on a valid single-bit signature (R79). -/
  | datafix (syn : Syn)
  /-- Action on every other syndrome (R80). -/
  | uncorr (syn : Syn)
  deriving DecidableEq, Repr

end Sys2Proof
end

