-- ==== Sys2Proof/Machine/Syndrome.lean ====
section
/-! DEFINITION. The bit fields and tests of the syndrome (30_encoding.md R44 to R56), the default `Split` (R47) and the
configuration the model runs with (R6). -/

namespace Sys2Proof

/-- The syndrome word made of its fields (R46). -/
def Syn.word (f : Syn) : Word := f.el ++ f.u1 ++ f.eh ++ f.ol ++ f.u0 ++ f.oh

/-- The fields of a syndrome word (R46). -/
def Syn.ofWord (w : Word) : Syn :=
  { el := w.extractLsb' 24 8, u1 := w.extractLsb' 20 4, eh := w.extractLsb' 16 4,
    ol := w.extractLsb' 8 8, u0 := w.extractLsb' 4 4, oh := w.extractLsb' 0 4 }

end Sys2Proof

namespace Sys2Proof.Machine

/-- The syndrome of a pair (R45). -/
def syndrome (stored computed : Word) : Word := stored ^^^ computed

/-- `popcount(v)` (R8): the number of 1 bits. -/
def popcount {n : Nat} (v : BitVec n) : Nat := (List.range n).countP (fun k => v.getLsbD k)

/-- The default `Split` (R47): `even = syn[19:16] ++ syn[31:24]`, `odd = syn[3:0] ++ syn[15:8]`. -/
def splitDefault (syn : Word) : Half × Half :=
  let f := Syn.ofWord syn
  (f.eh ++ f.el, f.oh ++ f.ol)

/-- The configuration the model runs with: the spec's defaults (R6; log entries 9 to 12). -/
def config : Config :=
  { offsetBits := 12, split := splitDefault, eccByteOrder := .bigEndian, gen := none }

/-- The literal reading of the source's numeral (R56): OFFSET_BITS = 9, all else as decided. -/
def literalNine : Config := { config with offsetBits := 9 }

/-- `even` of a syndrome (R47). -/
def evenOf (cfg : Config) (syn : Word) : Half := (cfg.split syn).1

/-- `odd` of a syndrome (R47). -/
def oddOf (cfg : Config) (syn : Word) : Half := (cfg.split syn).2

/-- The single-bit test (R52), which is also true of zero. -/
def atMostOneBit (syn : Word) : Bool := (syn - 1#32) &&& syn == 0#32

/-- The validity test (R48). -/
def validSignature (cfg : Config) (syn : Word) : Bool := evenOf cfg syn ^^^ oddOf cfg syn == validXor

/-- The index of the one bit of a one-hot syndrome (R52: syn is 2^k). -/
def bitIndex (syn : Word) : Fin 32 := Fin.ofNat 32 (Nat.log2 syn.toNat)

/-- `SynOf(a)` (R55): the syndrome of bit address `a` with the unused fields zero. -/
def synOf (a : Half) : Word :=
  Syn.word { el := ~~~(a.extractLsb' 0 8), u1 := 0, eh := ~~~(a.extractLsb' 8 4),
             ol := a.extractLsb' 0 8, u0 := 0, oh := a.extractLsb' 8 4 }

end Sys2Proof.Machine
end

