-- ==== Sys2Proof/WellFormed.lean ====
section
/-! DEFINITION. Which terms of `Instr` are instructions: the constraints the opcode table puts on the SYN rows
(R78 to R80). A syndrome of two or more bits is one that fails the zero test and the single-bit test (R52). -/

namespace Sys2Proof

/-- The syndrome has two or more bits set (R52, R79, R80). -/
def Syn.twoOrMoreBits (f : Syn) : Bool := f.word != 0#32 && !Machine.atMostOneBit f.word

/-- A DATAFIX syndrome has two or more bits and passes the validity test (R79). -/
def Syn.wfDatafix (f : Syn) : Bool := f.twoOrMoreBits && Machine.validSignature Machine.config f.word

/-- An UNCORR syndrome has two or more bits and fails the validity test (R80). -/
def Syn.wfUncorr (f : Syn) : Bool := f.twoOrMoreBits && !Machine.validSignature Machine.config f.word

/-- The well-formed instructions. -/
def Instr.wf : Instr → Bool
  | .nop => true
  | .correct => true
  | .reset => true
  | .cmdReserved => true
  | .step => true
  | .finish => true
  | .skip => true
  | .clean => true
  | .eccfix _ => true
  | .datafix f => f.wfDatafix
  | .uncorr f => f.wfUncorr

end Sys2Proof
end

