-- ==== Sys2Proof/Decode.lean ====
section
/-! DEFINITION. The decode (R57, R62) and the encode. What the block decodes is a 2-bit command code, or the pair
(STORED[i], COMPUTED[i]); as bytes, a code is one byte and a pair is eight bytes, stored first (R31, R65; log entry 15).
STEP and FINISH carry no code (R70, R87). -/

namespace Sys2Proof

/-- The class of a sub-page (R57, R58): which action its pair selects, with the syndrome it was read from. -/
inductive SubClass where
  | skip
  | clean
  | eccfix (bit : Fin 32)
  | datafix (syn : Syn)
  | uncorr (syn : Syn)
  deriving DecidableEq, Repr

/-- The action a class selects (R57, last sentence). -/
def SubClass.toInstr : SubClass → Instr
  | .skip => .skip
  | .clean => .clean
  | .eccfix k => .eccfix k
  | .datafix f => .datafix f
  | .uncorr f => .uncorr f

/-- `Class(s, c)` (R57): the first test that succeeds. -/
def classOf (cfg : Config) (s c : Word) : SubClass :=
  if s = erased then .skip
  else if Machine.syndrome s c = 0#32 then .clean
  else if Machine.atMostOneBit (Machine.syndrome s c) then .eccfix (Machine.bitIndex (Machine.syndrome s c))
  else if Machine.validSignature cfg (Machine.syndrome s c) then .datafix (Syn.ofWord (Machine.syndrome s c))
  else .uncorr (Syn.ofWord (Machine.syndrome s c))

/-- The action the pair (STORED[i], COMPUTED[i]) selects, under the model's configuration (R57). -/
def decodePair (s c : Word) : Instr := (classOf Machine.config s c).toInstr

/-- The command a CMD code names (R62). -/
def decodeCmd (code : BitVec 2) : Instr :=
  if code = Machine.cmdNop then .nop
  else if code = Machine.cmdCorrect then .correct
  else if code = Machine.cmdReset then .reset
  else .cmdReserved

/-- Why bytes are no instruction. -/
inductive DecodeError where
  /-- No byte: the block's own transitions carry no code (R62, R70, R87). -/
  | noCode
  /-- One byte of 4 or more: a CMD code has 2 bits (R62). -/
  | notACommandCode (b : Byte)
  /-- A number of bytes that is neither a code nor a pair of ECC words (R43). -/
  | badLength (n : Nat)
  deriving DecidableEq, Repr

/-- The ECC word of four bytes at ascending addresses (R31). -/
def eccWord (order : ByteOrder) (e0 e1 e2 e3 : Byte) : Word :=
  match order with
  | .bigEndian => e0 ++ e1 ++ e2 ++ e3
  | .littleEndian => e3 ++ e2 ++ e1 ++ e0

/-- The four bytes of an ECC word, at ascending addresses (R31). -/
def eccBytesOf (order : ByteOrder) (w : Word) : List Byte :=
  let big := [w.extractLsb' 24 8, w.extractLsb' 16 8, w.extractLsb' 8 8, w.extractLsb' 0 8]
  match order with
  | .bigEndian => big
  | .littleEndian => big.reverse

/-- The decoder, total on all byte strings: a command code in one byte, or a pair in eight, stored first. -/
def decode : List Byte → Except DecodeError Instr
  | [] => .error .noCode
  | [b] => if b.toNat < 4 then .ok (decodeCmd (b.setWidth 2)) else .error (.notACommandCode b)
  | [s0, s1, s2, s3, c0, c1, c2, c3] =>
    .ok (decodePair (eccWord Machine.config.eccByteOrder s0 s1 s2 s3) (eccWord Machine.config.eccByteOrder c0 c1 c2 c3))
  | bs => .error (.badLength bs.length)

/-- The pair of words that selects an action (R76 to R80); of the many pairs with the action's syndrome, the one whose
stored word is zero (log entry 16). A command or a transition has none. -/
def pairOf : Instr → Option (Word × Word)
  | .nop => none
  | .correct => none
  | .reset => none
  | .cmdReserved => none
  | .step => none
  | .finish => none
  | .skip => some (erased, 0#32)
  | .clean => some (0#32, 0#32)
  | .eccfix k => some (0#32, 1#32 <<< k.val)
  | .datafix f => some (0#32, f.word)
  | .uncorr f => some (0#32, f.word)

/-- The CMD code of a command (R62); none for the others. -/
def cmdOf : Instr → Option (BitVec 2)
  | .nop => some Machine.cmdNop
  | .correct => some Machine.cmdCorrect
  | .reset => some Machine.cmdReset
  | .cmdReserved => some 3#2
  | .step => none
  | .finish => none
  | .skip => none
  | .clean => none
  | .eccfix _ => none
  | .datafix _ => none
  | .uncorr _ => none

/-- The instruction has a code: all but the block's own transitions (R62). -/
def Instr.hasCode (i : Instr) : Bool := (cmdOf i).isSome || (pairOf i).isSome

/-- The bytes of an instruction: none for STEP and FINISH. -/
def encode (i : Instr) : List Byte :=
  match cmdOf i with
  | some code => [code.setWidth 8]
  | none =>
    match pairOf i with
    | some (s, c) => eccBytesOf Machine.config.eccByteOrder s ++ eccBytesOf Machine.config.eccByteOrder c
    | none => []

/-- The bytes of an instruction whose bits are `w` as spec/opcode_table.json numbers them: a CMD row's code in one byte;
a SYN or ECC row's 32-bit word as STORED, the word above it (zero where the table gives no bits) as COMPUTED, so that the
syndrome is `w` (log entry 15). -/
def tableBytes (nbits w : Nat) : List Byte :=
  if nbits = 0 then []
  else if nbits ≤ 8 then (if w < 256 then [BitVec.ofNat 8 w] else [])
  else eccBytesOf Machine.config.eccByteOrder (BitVec.ofNat 32 w) ++
    eccBytesOf Machine.config.eccByteOrder (BitVec.ofNat 32 (w / 2 ^ 32))

/-- The instruction the decoder reads from an instruction whose bits are `w`; none where it refuses. -/
def decodeTableWord (nbits w : Nat) : Option Instr := (decode (tableBytes nbits w)).toOption

end Sys2Proof
end

