-- ==== Sys2Proof/Machine/Flags.lean ====
section
/-! DEFINITION. What plays the part of flags (R22): the two counts, the aggregate outcome and the log record. -/

namespace Sys2Proof.Machine

/-- `Aggregate(ncorr, nunc)` (R88). -/
def aggregate (ncorr nunc : BitVec 3) : BitVec 2 :=
  if nunc ≠ 0#3 then outUncorrectable else if ncorr ≠ 0#3 then outCorrected else outOk

/-- The records FINISH emits (R89): one with both counts when either is non-zero, else none. -/
def logRecords (ncorr nunc : BitVec 3) : List LogRecord :=
  if ncorr ≠ 0#3 ∨ nunc ≠ 0#3 then [{ ncorr := ncorr, nunc := nunc }] else []

/-- Format LOGR (R61): bits 5:3 ncorr, bits 2:0 nunc. -/
def LogRecord.word (r : LogRecord) : BitVec 6 := r.ncorr ++ r.nunc

/-- NCORR <- NCORR + 1 (R16; log entry 8). -/
def State.countCorrected (s : State) : State := s.setNcorr (s.ncorr + 1#3)

/-- NUNC <- NUNC + 1 (R17; log entry 8). -/
def State.countUncorrectable (s : State) : State := s.setNunc (s.nunc + 1#3)

end Sys2Proof.Machine
end

