-- ==== Sys2Proof/Machine/Operands.lean ====
section
/-! DEFINITION. Operand assembly: the bit address of DATAFIX (R50, R56) and the sub-page a STEP works on (R15, R70). -/

namespace Sys2Proof.Machine

/-- `off = odd[OFFSET_BITS-1:0]`, zero-extended to 12 bits (R50). -/
def offsetOf (cfg : Config) (odd : Half) : Half := (odd.setWidth cfg.offsetBits).setWidth 12

/-- `byte = off >> 3` (R50). -/
def byteIndex (off : Half) : Nat := (off >>> 3).toNat

/-- `bit = off and 7` (R50). -/
def bitInByte (off : Half) : Nat := (off &&& 7#12).toNat

/-- `1 << bit` (R32, R79): the mask of the bit to invert. -/
def flipMask (off : Half) : Byte := 1#8 <<< bitInByte off

/-- `a = 512*i + byte` (R50, R79). -/
def dataAddress (i : Nat) (off : Half) : Nat := 512 * i + byteIndex off

/-- The bit address a DATAFIX syndrome names (R50, R79). -/
def datafixOffset (cfg : Config) (f : Syn) : Half := offsetOf cfg (oddOf cfg f.word)

/-- The sub-page the next STEP processes: SP, where STEP is enabled (PH = BUSY and SP < 4); none elsewhere (R15, R70). -/
def stepSubPage (s : State) : Option SubIndex :=
  if s.ph = phBusy then (if h : s.sp.toNat < 4 then some ⟨s.sp.toNat, h⟩ else none) else none

/-- FINISH is enabled (R87): PH = BUSY and SP = 4. -/
def finishEnabled (s : State) : Bool := s.ph == phBusy && s.sp == 4#3

end Sys2Proof.Machine
end

