-- ==== Sys2Proof/Machine/Actions.lean ====
section
/-! DEFINITION. The five sub-page actions (R75 to R80), each on the sub-page SP names. SP itself is advanced by the
surrounding STEP, not by the action (R81). -/

namespace Sys2Proof.Machine

/-- SKIP (R76): nothing. -/
def execSkip (s : State) : Host.Outcome State Fault Refusal := .next s

/-- CLEAN (R77): nothing. -/
def execClean (s : State) : Host.Outcome State Fault Refusal := .next s

/-- ECCFIX (R78): NCORR + 1, whichever bit it is. -/
def execEccfix (_bit : Fin 32) (s : State) : Host.Outcome State Fault Refusal := .next s.countCorrected

/-- DATA[512*i + byte] <- that byte xor (1 << bit), one read and one write of it (R34, R79). -/
def flipDataBit (i : Nat) (off : Half) (s : State) : Except Fault State :=
  match memRead s (dataAddress i off) with
  | .error e => .error e
  | .ok v => memWrite s (dataAddress i off) (v ^^^ flipMask off)

/-- DATAFIX (R79): flip the bit the syndrome names, then NCORR + 1. -/
def execDatafix (f : Syn) (s : State) : Host.Outcome State Fault Refusal :=
  match flipDataBit s.sp.toNat (datafixOffset config f) s with
  | .error e => .fault e
  | .ok t => .next t.countCorrected

/-- UNCORR (R80): NUNC + 1; the data is left as it is. -/
def execUncorr (_f : Syn) (s : State) : Host.Outcome State Fault Refusal := .next s.countUncorrectable

/-- The action of a class (R57, R70). -/
def performAction (k : SubClass) (s : State) : Host.Outcome State Fault Refusal :=
  match k with
  | .skip => execSkip s
  | .clean => execClean s
  | .eccfix b => execEccfix b s
  | .datafix f => execDatafix f s
  | .uncorr f => execUncorr f s

end Sys2Proof.Machine
end

