-- ==== Sys2Proof/Machine/Sequence.lean ====
section
/-! DEFINITION. The block's own transitions STEP (R70) and FINISH (R87). -/

namespace Sys2Proof.Machine

/-- STEP (R70): the action the pair of sub-page SP selects, then SP + 1. Where STEP is not enabled there is no such
transition (log entry 5). -/
def execStep (s : State) : Host.Outcome State Fault Refusal :=
  match stepSubPage s with
  | none => .refused .stepNotEnabled
  | some i => onNext (performAction (classOf config (s.storedAt i) (s.computedAt i)) s) State.advanceSp

/-- FINISH (R87 to R89). Where FINISH is not enabled there is no such transition (log entry 5). -/
def execFinish (s : State) : Host.Outcome State Fault Refusal :=
  if finishEnabled s then
    .next (((s.setOutcome (aggregate s.ncorr s.nunc)).emitLog (logRecords s.ncorr s.nunc)).setPh phDone)
  else .refused .finishNotEnabled

end Sys2Proof.Machine
end

