-- ==== Sys2Proof/Machine/Dispatch.lean ====
section
/-! DEFINITION. Which meaning each instruction has. -/

namespace Sys2Proof.Machine

def exec (i : Instr) (s : State) : Host.Outcome State Fault Refusal :=
  match i with
  | .nop => Sys2Proof.Machine.execNop s
  | .correct => Sys2Proof.Machine.execCorrect s
  | .reset => Sys2Proof.Machine.execReset s
  | .cmdReserved => Sys2Proof.Machine.execCmdReserved s
  | .step => Sys2Proof.Machine.execStep s
  | .finish => Sys2Proof.Machine.execFinish s
  | .skip => Sys2Proof.Machine.execSkip s
  | .clean => Sys2Proof.Machine.execClean s
  | .eccfix b => Sys2Proof.Machine.execEccfix b s
  | .datafix f => Sys2Proof.Machine.execDatafix f s
  | .uncorr f => Sys2Proof.Machine.execUncorr f s

end Sys2Proof.Machine
end

