-- ==== Sys2Proof/Machine/HostAccess.lean ====
section
/-! DEFINITION. The host's accesses to the buffers and the result registers, by phase (R37, R65, R121). -/

namespace Sys2Proof.Machine

/-- A buffer access is allowed in IDLE and DONE and refused in BUSY (R37); in the phase that is never taken too
(log entry 7). -/
def whenBuffersOpen (s : State) (o : Host.Outcome State Fault Refusal) : Host.Outcome State Fault Refusal :=
  if s.ph = phIdle ∨ s.ph = phDone then o
  else if s.ph = phBusy then .refused .hostAccessWhileBusy
  else .refused .reservedPhase

/-- `LDD a, v` (R65): DATA[a] <- v. -/
def hostWriteData (a : DataAddr) (v : Byte) (s : State) : Host.Outcome State Fault Refusal :=
  whenBuffersOpen s (match memWrite s a.toNat v with
    | .error e => .fault e
    | .ok t => .next t)

/-- `LDS i, w` (R65): STORED[i] <- w. -/
def hostWriteStored (i : SubIndex) (w : Word) (s : State) : Host.Outcome State Fault Refusal :=
  whenBuffersOpen s (.next (s.setStored i w))

/-- `LDC i, w` (R65): COMPUTED[i] <- w. -/
def hostWriteComputed (i : SubIndex) (w : Word) (s : State) : Host.Outcome State Fault Refusal :=
  whenBuffersOpen s (.next (s.setComputed i w))

/-- `RDD a` (R65): the byte DATA[a]. -/
def hostReadData (a : DataAddr) (s : State) : Host.Outcome State Fault Refusal :=
  whenBuffersOpen s (match memRead s a.toNat with
    | .error e => .fault e
    | .ok v => .next (s.recordRead (.dataByte a v)))

/-- A host read of STORED[i] (R37; log entry 18). -/
def hostReadStored (i : SubIndex) (s : State) : Host.Outcome State Fault Refusal :=
  whenBuffersOpen s (.next (s.recordRead (.storedWord i (s.storedAt i))))

/-- A host read of COMPUTED[i] (R37; log entry 18). -/
def hostReadComputed (i : SubIndex) (s : State) : Host.Outcome State Fault Refusal :=
  whenBuffersOpen s (.next (s.recordRead (.computedWord i (s.computedAt i))))

/-- `RDR` (R65): (PH, OUTCOME, NCORR, NUNC), in every phase (R37, R117). -/
def hostReadResult (s : State) : Host.Outcome State Fault Refusal :=
  .next (s.recordRead (.result s.ph s.outcome s.ncorr s.nunc))

/-- A host read of SP: in DONE it reads SP (R87); in no other phase is there such a read (R10, R109, U14; log entry 23). -/
def hostReadPointer (s : State) : Host.Outcome State Fault Refusal :=
  if s.ph = phDone then .next (s.recordRead (.pointer s.sp)) else .refused .pointerReadOutsideDone

end Sys2Proof.Machine
end

