-- ==== Sys2Proof/Machine/Fetch.lean ====
section
/-! DEFINITION. What happens next: the head of the schedule, or, where the host presents nothing, the block's enabled
transition (R70, R119; log entries 3 and 5). And how an instruction is placed to be the next. -/

namespace Sys2Proof.Machine

/-- The block's enabled transition (R70, R87); at most one of the two is enabled. -/
def enabledTransition (s : State) : Option Instr :=
  if (stepSubPage s).isSome then some .step
  else if finishEnabled s then some .finish
  else none

/-- The action the enabled STEP performs: the decode of the pair of sub-page SP (R40, R57). -/
def fetchAction (s : State) : Option Instr :=
  (stepSubPage s).map (fun i => decodePair (s.storedAt i) (s.computedAt i))

/-- The block's turn: its enabled transition, or no move where none is enabled (log entry 5). -/
def blockTurn (s : State) : Host.Outcome State Fault Refusal :=
  match enabledTransition s with
  | some i => exec i s
  | none => .next s

/-- One entry of the schedule takes place. -/
def takeTurn (t : Turn) (s : State) : Host.Outcome State Fault Refusal :=
  match t with
  | .cmd code => exec (decodeCmd code) s
  | .ldd a v => hostWriteData a v s
  | .lds i w => hostWriteStored i w s
  | .ldc i w => hostWriteComputed i w s
  | .rdd a => hostReadData a s
  | .rds i => hostReadStored i s
  | .rdc i => hostReadComputed i s
  | .rdr => hostReadResult s
  | .rdsp => hostReadPointer s
  | .block => blockTurn s

/-- One transition: the head of the schedule, taken off it; the block's turn where the schedule is empty. -/
def transition (s : State) : Host.Outcome State Fault Refusal :=
  match s.schedule with
  | [] => blockTurn s
  | t :: rest => takeTurn t (s.setSchedule rest)

/-- A CMD code is what the host presents next. -/
def placeCommand (code : BitVec 2) (s : State) : State := s.setSchedule (.cmd code :: s.schedule)

/-- The sub-page at which a pair is placed: the one STEP would process, else sub-page 0. -/
def placeIndex (s : State) : SubIndex := (stepSubPage s).getD 0

/-- A pair is what the block decodes next: it stands in STORED[SP] and COMPUTED[SP], the block is BUSY, and it is the
block's turn. SP is kept where a STEP is enabled already, and is 0 elsewhere. -/
def placePair (stored computed : Word) (s : State) : State :=
  ((((s.setStored (placeIndex s) stored).setComputed (placeIndex s) computed).setSp
      (BitVec.ofNat 3 (placeIndex s).val)).setPh phBusy).setSchedule (.block :: s.schedule)

/-- The block's own transition is next: STEP for SP < 4, FINISH for SP = 4. -/
def placeBlockTurn (s : State) : State := (s.setPh phBusy).setSchedule (.block :: s.schedule)

/-- The instruction with bits `w`, as spec/opcode_table.json numbers them, is what the next transition runs. -/
def placeTableWord (s : State) (nbits w : Nat) : State :=
  if nbits = 0 then placeBlockTurn s
  else if nbits ≤ 8 then placeCommand (BitVec.ofNat 2 w) s
  else placePair (BitVec.ofNat 32 w) (BitVec.ofNat 32 (w / 2 ^ 32)) s

end Sys2Proof.Machine
end

