-- ==== Sys2Proof/Machine/Step.lean ====
section
/-! DEFINITION. The step function: one transition of the host or of the block. -/

namespace Sys2Proof.Machine

/-- One transition (R70). -/
def step (s : State) : Host.Outcome State Fault Refusal := transition s

/-- `s` with the instruction of bits `w` placed so that the very next step runs it (log entry 4). -/
def State.withFetchWord (s : State) (nbits w : Nat) : State := placeTableWord s nbits w

end Sys2Proof.Machine
end

