-- ==== Sys2Proof/Machine/Page.lean ====
section
/-! DEFINITION. The whole operation as one pure function over a page and its ECC record: `SubAction` (R86) and
`CorrectPage` (R90). The step machine (CORRECT, four STEPs, FINISH) is its hardware rendering (R91). -/

namespace Sys2Proof.Machine

/-- Bit `bit` of byte `byte` inverted, for the bit address `off` (R50, R79). -/
def flipInSubPage (d : SubPage) (off : Half) : SubPage :=
  Vector.ofFn (fun j : Fin 512 => if j.val = byteIndex off then d[j.val] ^^^ flipMask off else d[j.val])

/-- What an action does to a sub-page, and what it adds to the two counts (R86). -/
structure SubResult where
  data : SubPage
  dcorr : Nat
  dunc : Nat
  deriving DecidableEq, Repr

/-- `SubAction(d, s, c)` (R86). -/
def subAction (cfg : Config) (d : SubPage) (s c : Word) : SubResult :=
  match classOf cfg s c with
  | .skip => { data := d, dcorr := 0, dunc := 0 }
  | .clean => { data := d, dcorr := 0, dunc := 0 }
  | .eccfix _ => { data := d, dcorr := 1, dunc := 0 }
  | .datafix f => { data := flipInSubPage d (datafixOffset cfg f), dcorr := 1, dunc := 0 }
  | .uncorr _ => { data := d, dcorr := 0, dunc := 1 }

/-- DATA[512*i .. 512*i+511] (R29). -/
def sliceOf (D : Page) (i : SubIndex) : SubPage :=
  Vector.ofFn (fun j : Fin 512 => D[512 * i.val + j.val]'(by omega))

/-- The page with sub-page `i` replaced (R29). -/
def withSlice (D : Page) (i : SubIndex) (d : SubPage) : Page :=
  Vector.ofFn (fun a : Fin 2048 =>
    if a.val / 512 = i.val then d[a.val % 512]'(Nat.mod_lt _ (by decide)) else D[a.val])

/-- The page and the counts while the sub-pages are processed (R90). -/
structure PageProgress where
  data : Page
  ncorr : Nat
  nunc : Nat
  deriving DecidableEq, Repr

/-- One pass of the loop body of `CorrectPage` (R90). -/
def processSubPage (cfg : Config) (S C : Vector Word 4) (p : PageProgress) (i : SubIndex) : PageProgress :=
  let r := subAction cfg (sliceOf p.data i) S[i.val] C[i.val]
  { data := withSlice p.data i r.data, ncorr := p.ncorr + r.dcorr, nunc := p.nunc + r.dunc }

/-- The sub-pages in a given order, from a page with both counts zero (R90, R72). -/
def processPage (cfg : Config) (D : Page) (S C : Vector Word 4) (order : List SubIndex) : PageProgress :=
  order.foldl (processSubPage cfg S C) { data := D, ncorr := 0, nunc := 0 }

/-- What `CorrectPage` returns (R90). -/
structure PageResult where
  data : Page
  outcome : BitVec 2
  ncorr : Nat
  nunc : Nat
  log : List LogRecord
  deriving DecidableEq, Repr

/-- `Aggregate` on natural counts (R88). -/
def aggregateNat (ncorr nunc : Nat) : BitVec 2 :=
  if nunc > 0 then outUncorrectable else if ncorr > 0 then outCorrected else outOk

/-- The result formed from the processed sub-pages (R90, R88, R89). -/
def PageProgress.result (p : PageProgress) : PageResult :=
  { data := p.data
    outcome := aggregateNat p.ncorr p.nunc
    ncorr := p.ncorr
    nunc := p.nunc
    log := if p.ncorr ≠ 0 ∨ p.nunc ≠ 0 then [{ ncorr := BitVec.ofNat 3 p.ncorr, nunc := BitVec.ofNat 3 p.nunc }] else [] }

/-- `CorrectPage(D, S, C)` (R90). -/
def correctPage (cfg : Config) (D : Page) (S C : Vector Word 4) : PageResult :=
  (processPage cfg D S C [0, 1, 2, 3]).result

/-- The number of bits in which two pages differ (R92). -/
def bitDifference (D E : Page) : Nat :=
  ((List.finRange 2048).map (fun a => popcount (D[a.val] ^^^ E[a.val]))).sum

/-- The sub-page's pair has class DATAFIX (R57). -/
def isDatafixPair (cfg : Config) (s c : Word) : Bool :=
  match classOf cfg s c with
  | .skip => false
  | .clean => false
  | .eccfix _ => false
  | .datafix _ => true
  | .uncorr _ => false

end Sys2Proof.Machine
end

