-- ==== Sys2Proof/Machine/Generator.lean ====
section
/-! DEFINITION. The ECC generator as the spec speaks of it: the property `GenLinear` that the source's round trip needs,
and the reference construction `RefGen` (R6 (d), R93 (c), 95_test_vectors.md section 4). The block never evaluates a
generator, and `RefGen` is not claimed to be the controller's. -/

namespace Sys2Proof.Machine

/-- `flip(d, a)`: bit `a and 7` of byte `a >> 3` inverted. -/
def flipAt (d : SubPage) (a : Half) : SubPage := flipInSubPage d a

/-- `GenLinear`: flipping the data bit at address `a` changes the ECC by `SynOf(a)`. -/
def GenLinear (gen : SubPage → Word) : Prop :=
  ∀ (d : SubPage) (a : Half), gen (flipAt d a) = gen d ^^^ synOf a

/-- The data bit at bit address `a` (R32): bit `a[2:0]` of byte `a[11:3]`. -/
def bitAt (d : SubPage) (a : Fin 4096) : Bool := (d[a.val / 8]'(by omega)).getLsbD (a.val % 8)

/-- The xor, over the addresses of the set bits, of a 12-bit value of the address. -/
def xorOverSetBits (d : SubPage) (value : Half → Half) : Half :=
  (List.finRange 4096).foldl
    (fun acc a => if bitAt d a then acc ^^^ value (BitVec.ofNat 12 a.val) else acc) 0#12

/-- The word with halves `even` and `odd` under the default `Split`, the unused fields zero. -/
def wordOfHalves (even odd : Half) : Word :=
  Syn.word { el := even.extractLsb' 0 8, u1 := 0, eh := even.extractLsb' 8 4,
             ol := odd.extractLsb' 0 8, u0 := 0, oh := odd.extractLsb' 8 4 }

/-- `RefGen(d)`: `odd` is the xor of the addresses of the set bits, `even` the xor of their complements. -/
def refGen (d : SubPage) : Word :=
  wordOfHalves (xorOverSetBits d (fun a => ~~~a)) (xorOverSetBits d (fun a => a))

end Sys2Proof.Machine
end

