-- ==== Sys2Proof/Safety.lean ====
section
/-! DEFINITION. The terms claims use: the invariant of every reachable state (R27), which turns keep the host's contract
(R37, R121), and which turns may stand inside an operation (R91). -/

namespace Sys2Proof.Machine

/-- A log record that FINISH can emit (R61): at least one count non-zero, at most four sub-pages counted. -/
abbrev LogRecord.ok (r : LogRecord) : Prop :=
  (r.ncorr ≠ 0#3 ∨ r.nunc ≠ 0#3) ∧ r.ncorr.toNat + r.nunc.toNat ≤ 4

/-- The invariant of every reachable state: R27 (a) to (e), the log's records (R61), and the memory's canonical form. -/
structure State.Inv (s : State) : Prop where
  /-- R27 (a): PH is 0, 1 or 2. -/
  phase : s.ph = phIdle ∨ s.ph = phBusy ∨ s.ph = phDone
  /-- R27 (b): SP is at most 4. -/
  spBound : s.sp.toNat ≤ 4
  /-- R27 (b): what IDLE means. -/
  idle : s.ph = phIdle → s.sp = 0#3 ∧ s.ncorr = 0#3 ∧ s.nunc = 0#3 ∧ s.outcome = outOk
  /-- R27 (b): DONE has SP = 4. -/
  doneSp : s.ph = phDone → s.sp = 4#3
  /-- R27 (c): each sub-page is counted at most once. -/
  counts : s.ncorr.toNat + s.nunc.toNat ≤ s.sp.toNat
  /-- R27 (d): OUTCOME is 0 throughout BUSY. -/
  busyOutcome : s.ph = phBusy → s.outcome = outOk
  /-- R27 (e): the outcome of DONE is the aggregate of its counts. -/
  doneOutcome : s.ph = phDone → s.outcome = aggregate s.ncorr s.nunc
  /-- R27 (e): OUTCOME is never 2. -/
  outcomeCode : s.outcome ≠ 2#2
  /-- R61: the records of LOG. -/
  logOk : ∀ r ∈ s.log, r.ok
  /-- The memory is in canonical form. -/
  memory : s.data.wf

/-- The turn is a host access to DATA, STORED or COMPUTED (R37). -/
def Turn.touchesBuffers : Turn → Bool
  | .cmd _ => false
  | .ldd _ _ => true
  | .lds _ _ => true
  | .ldc _ _ => true
  | .rdd _ => true
  | .rds _ => true
  | .rdc _ => true
  | .rdr => false
  | .rdsp => false
  | .block => false

/-- The turn keeps the host's contract in this state (R37, R121): no reserved code, no buffer access in BUSY, and no read
of SP outside DONE (R87; log entry 23). -/
def Turn.lawful (t : Turn) (s : State) : Bool :=
  t ≠ .cmd 3#2 && !(t.touchesBuffers && s.ph == phBusy) && !(t == .rdsp && s.ph != phDone)

/-- The turns that may stand inside an operation without ending it (R91): the block's, a CORRECT (dropped in BUSY, R68),
no command, and a read of the result registers. -/
def Turn.insideOperation : Turn → Bool
  | .cmd code => code == cmdNop || code == cmdCorrect
  | .ldd _ _ => false
  | .lds _ _ => false
  | .ldc _ _ => false
  | .rdd _ => false
  | .rds _ => false
  | .rdc _ => false
  | .rdr => true
  | .rdsp => false
  | .block => true

/-- The next turn: the head of the schedule, or the block's where the host presents nothing. -/
def State.nextTurn (s : State) : Turn := s.schedule.headD .block

/-- What is left of the schedule after the next turn. -/
def State.restOfSchedule (s : State) : List Turn := s.schedule.tail

end Sys2Proof.Machine
end

