-- ==== Sys2Proof/Certificates/Slice0/Obligations.lean ====
section
/-! DEFINITION. The statements about the model, for the provers. Each docstring names the rule of spec/ it formalises, and
the log entry where it rests on a choice of the model. A rule the spec itself marks [derived] or takes from general
knowledge is restated here as 'derived'. -/

open Sys2Proof Sys2Proof.Machine

/-! ### Encodings and the class decode -/

/-- Decoding the encoding of a well-formed instruction that has a code gives it back, with every operand at every value
the encoding admits (R46, R57, R62; the encoder's choice of a zero stored word is log entry 16). -/
def Obligations.DecodeOfEncodeIsTheInstruction : Prop :=
  ∀ i : Instr, i.wf = true → i.hasCode = true → decode (encode i) = .ok i

/-- Byte order of an ECC word under the model's configuration (R31, default of decision D3; log entry 11): the first of
four bytes is bits 31:24 and the last bits 7:0, and eight bytes decode as the pair of their two words, stored first
(log entry 15). -/
def Obligations.EccBytesAssembleBigEndian : Prop :=
  ∀ s0 s1 s2 s3 c0 c1 c2 c3 : Byte,
    (eccWord config.eccByteOrder s0 s1 s2 s3).extractLsb' 24 8 = s0 ∧
    (eccWord config.eccByteOrder s0 s1 s2 s3).extractLsb' 16 8 = s1 ∧
    (eccWord config.eccByteOrder s0 s1 s2 s3).extractLsb' 8 8 = s2 ∧
    (eccWord config.eccByteOrder s0 s1 s2 s3).extractLsb' 0 8 = s3 ∧
    decode [s0, s1, s2, s3, c0, c1, c2, c3] = .ok (decodePair (s0 ++ s1 ++ s2 ++ s3) (c0 ++ c1 ++ c2 ++ c3))

/-- Words written out from the spec's encodings decode to the instruction they stand for (R62; vectors V36, V39, V41,
V58, V47, V66 of 95_test_vectors.md). That a command is one byte and a pair eight bytes, stored word first, is the
model's choice (log entry 15); the byte order of a word is the spec's decision D3 (log entry 11). A sanity statement. -/
def Obligations.WrittenWordsDecode : Prop :=
  decode [0x00#8] = .ok .nop ∧ decode [0x01#8] = .ok .correct ∧ decode [0x02#8] = .ok .reset ∧
  decode [0x03#8] = .ok .cmdReserved ∧
  decode [0xFF#8, 0xFF#8, 0xFF#8, 0xFF#8, 0x00#8, 0x00#8, 0x00#8, 0x00#8] = .ok .skip ∧
  decode [0x5A#8, 0x0F#8, 0x3C#8, 0x01#8, 0x5A#8, 0x0F#8, 0x3C#8, 0x01#8] = .ok .clean ∧
  decode [0x12#8, 0x34#8, 0x56#8, 0x78#8, 0x12#8, 0x34#8, 0xD6#8, 0x78#8] = .ok (.eccfix 15) ∧
  decode [0x00#8, 0x00#8, 0x00#8, 0x00#8, 0xDC#8, 0x0E#8, 0x23#8, 0x01#8] =
    .ok (.datafix { el := 0xDC#8, u1 := 0#4, eh := 0xE#4, ol := 0x23#8, u0 := 0#4, oh := 1#4 }) ∧
  decode [0x00#8, 0x00#8, 0x00#8, 0x00#8, 0xFF#8, 0xFF#8, 0xFF#8, 0xFF#8] =
    .ok (.uncorr { el := 0xFF#8, u1 := 0xF#4, eh := 0xF#4, ol := 0xFF#8, u0 := 0xF#4, oh := 0xF#4 }) ∧
  decode [0x00#8, 0x00#8, 0x00#8, 0x00#8, 0x01#8, 0x23#8, 0x0E#8, 0xDC#8] =
    .ok (.uncorr { el := 0x01#8, u1 := 2#4, eh := 3#4, ol := 0x0E#8, u0 := 0xD#4, oh := 0xC#4 })

/-- R57: the class is decided by the first test that succeeds, in the order of the rule, and selects the action of the
same name. -/
def Obligations.ClassIsTheFirstTestThatSucceeds : Prop :=
  ∀ s c : Word,
    (s = 0xFFFFFFFF#32 → decodePair s c = .skip) ∧
    (s ≠ 0xFFFFFFFF#32 → s ^^^ c = 0#32 → decodePair s c = .clean) ∧
    (s ≠ 0xFFFFFFFF#32 → s ^^^ c ≠ 0#32 → ((s ^^^ c) - 1#32) &&& (s ^^^ c) = 0#32 →
      ∃ k : Fin 32, s ^^^ c = 1#32 <<< k.val ∧ decodePair s c = .eccfix k) ∧
    (s ≠ 0xFFFFFFFF#32 → s ^^^ c ≠ 0#32 → ((s ^^^ c) - 1#32) &&& (s ^^^ c) ≠ 0#32 →
      evenOf config (s ^^^ c) ^^^ oddOf config (s ^^^ c) = 0xFFF#12 →
      ∃ f : Syn, f.word = s ^^^ c ∧ decodePair s c = .datafix f) ∧
    (s ≠ 0xFFFFFFFF#32 → s ^^^ c ≠ 0#32 → ((s ^^^ c) - 1#32) &&& (s ^^^ c) ≠ 0#32 →
      evenOf config (s ^^^ c) ^^^ oddOf config (s ^^^ c) ≠ 0xFFF#12 →
      ∃ f : Syn, f.word = s ^^^ c ∧ decodePair s c = .uncorr f)

/-- R52: on a non-zero syndrome the expression `((syn - 1) and syn) == 0` says that exactly one bit is set, that the
syndrome is one of the 32 powers of two; on zero it is true as well. -/
def Obligations.SingleBitTestMeansExactlyOneBit : Prop :=
  (∀ syn : Word, syn ≠ 0#32 →
    ((syn - 1#32) &&& syn = 0#32 ↔ popcount syn = 1) ∧
    (popcount syn = 1 ↔ ∃ k : Fin 32, syn = 1#32 <<< k.val)) ∧
  (0#32 - 1#32 = 0xFFFFFFFF#32 ∧ (0#32 - 1#32) &&& 0#32 = 0#32) ∧
  (∀ syn : Word, atMostOneBit syn = true ↔ (syn - 1#32) &&& syn = 0#32)

/-- The halves of the syndrome, bit by bit (R46, R47 with the default `Split`, which the spec takes from general knowledge;
log entry 10), and the validity test as the 12-bit comparison of R48. -/
def Obligations.SplitTakesTheNamedBits : Prop :=
  ∀ syn : Word,
    (∀ k : Nat, k < 8 → (evenOf config syn).getLsbD k = syn.getLsbD (24 + k) ∧
      (oddOf config syn).getLsbD k = syn.getLsbD (8 + k)) ∧
    (∀ k : Nat, k < 4 → (evenOf config syn).getLsbD (8 + k) = syn.getLsbD (16 + k) ∧
      (oddOf config syn).getLsbD (8 + k) = syn.getLsbD k) ∧
    (validSignature config syn = true ↔ evenOf config syn ^^^ oddOf config syn = 0xFFF#12)

/-- Under the default `Split`, the validity test is the complementarity of the fields EL, OL and EH, OH (the spec marks R49
as derived). -/
def Obligations.ValidityTestIsFieldwiseComplement : Prop :=
  ∀ syn : Word, validSignature config syn = true ↔
    (syn.extractLsb' 24 8 ^^^ syn.extractLsb' 8 8 = 0xFF#8 ∧ syn.extractLsb' 16 4 ^^^ syn.extractLsb' 0 4 = 0xF#4)

/-- The counting facts the spec derives in R53: a syndrome that passes the validity test has 12 to 20 bits set, so the
validity test may stand before or after the other two; and how many syndromes each test admits. -/
def Obligations.SyndromeCountsOfEachTest : Prop :=
  (∀ syn : Word, validSignature config syn = true →
    12 ≤ popcount syn ∧ popcount syn ≤ 20 ∧ syn ≠ 0#32 ∧ atMostOneBit syn = false) ∧
  Nat.card { syn : Word // syn ≠ 0#32 ∧ atMostOneBit syn = true } = 32 ∧
  Nat.card { syn : Word // validSignature config syn = true } = 1048576 ∧
  Nat.card { syn : Word // syn ≠ 0#32 ∧ atMostOneBit syn = false ∧ validSignature config syn = false } = 4293918687

/-- `SynOf` inverts the address decode, and the DATAFIX syndromes are the `SynOf(a)` with any unused bits added (the spec
marks R55 as derived). -/
def Obligations.SynOfGivesEveryValidSyndrome : Prop :=
  (∀ a : Half, config.split (synOf a) = (~~~a, a)) ∧
  (∀ (a : Half) (u : Word), u &&& 0xFF0FFF0F#32 = 0#32 →
    validSignature config (synOf a ||| u) = true ∧ oddOf config (synOf a ||| u) = a) ∧
  (∀ syn : Word, validSignature config syn = true →
    ∃ u : Word, u &&& 0xFF0FFF0F#32 = 0#32 ∧ syn = synOf (oddOf config syn) ||| u)

/-- The unused fields U1 and U0 take no part in `Split`, the validity test and the address (R54, R46; decision D15). -/
def Obligations.UnusedBitsDoNotChangeTheHalves : Prop :=
  ∀ syn u : Word, u &&& 0xFF0FFF0F#32 = 0#32 →
    config.split (syn ^^^ u) = config.split syn ∧
    validSignature config (syn ^^^ u) = validSignature config syn

/-- R50 with the decided OFFSET_BITS = 12 (log entry 9): the offset is all of `odd`; byte and bit are its fields; every bit
of the sub-page has exactly one bit address and no address lies outside; and the DATA address is `512*i + byte`. -/
def Obligations.EveryBitOfASubPageHasOneAddress : Prop :=
  (∀ odd : Half, offsetOf config odd = odd ∧
    byteIndex odd = (odd.extractLsb' 3 9).toNat ∧ bitInByte odd = (odd.extractLsb' 0 3).toNat ∧
    byteIndex odd < 512 ∧ bitInByte odd < 8) ∧
  (∀ byte bit : Nat, byte < 512 → bit < 8 → ∃! odd : Half, byteIndex odd = byte ∧ bitInByte odd = bit) ∧
  (∀ (i : SubIndex) (off : Half), dataAddress i.val off = 512 * i.val + byteIndex off ∧
    512 * i.val ≤ dataAddress i.val off ∧ dataAddress i.val off ≤ 512 * i.val + 511)

/-- The literal reading OFFSET_BITS = 9 (the spec marks R56 as derived): the offset is `odd` modulo 512, its byte is below
64, and the two readings agree exactly on `odd` below 512. -/
def Obligations.LiteralNineAgreesBelow512 : Prop :=
  ∀ odd : Half, (offsetOf literalNine odd).toNat = odd.toNat % 512 ∧ byteIndex (offsetOf literalNine odd) < 64 ∧
    bitInByte (offsetOf literalNine odd) = bitInByte odd ∧
    (offsetOf literalNine odd = offsetOf config odd ↔ odd.toNat < 512)

/-! ### Host commands -/

/-- NOP completes with no effect, in every state (format CMD, code `00`). -/
def Obligations.NopHasNoEffect : Prop :=
  decodeCmd 0#2 = .nop ∧ ∀ s : State, exec .nop s = .next s

/-- R67: an accepted CORRECT clears the counts, OUTCOME and SP, sets PH to BUSY, and writes nothing else. -/
def Obligations.CorrectAcceptedStartsAnOperation : Prop :=
  decodeCmd 1#2 = .correct ∧
  ∀ s : State, (s.ph = phIdle ∨ s.ph = phDone) →
    exec .correct s = .next { s with ncorr := 0#3, nunc := 0#3, outcome := 0#2, sp := 0#3, ph := phBusy }

/-- R68: a CORRECT while BUSY is dropped: no state changes at all. -/
def Obligations.CorrectWhileBusyIsDropped : Prop :=
  decodeCmd 1#2 = .correct ∧ ∀ s : State, s.ph = phBusy → exec .correct s = .next s

/-- CORRECT in the phase code 3, which the invariant rules out, is refused by name (the model's choice, log entry 7). -/
def Obligations.CorrectInReservedPhaseIsRefused : Prop :=
  ∀ s : State, s.ph = 3#2 → exec .correct s = .refused .reservedPhase

/-- R69: RESET, in any phase, clears PH, SP, the counts and OUTCOME, keeps DATA, STORED, COMPUTED and LOG, and leaves
neither STEP nor FINISH enabled. -/
def Obligations.ResetClearsRegistersAndKeepsBuffers : Prop :=
  decodeCmd 2#2 = .reset ∧
  ∀ s : State, ∃ t : State, exec .reset s = .next t ∧
    t = { s with ph := phIdle, sp := 0#3, ncorr := 0#3, nunc := 0#3, outcome := 0#2 } ∧
    enabledTransition t = none

/-- The reserved command code is refused in every state (R63 (d)). -/
def Obligations.ReservedCommandIsRefused : Prop :=
  decodeCmd 3#2 = .cmdReserved ∧ ∀ s : State, exec .cmdReserved s = .refused .reservedCommand

/-! ### The five actions -/

/-- R76: a sub-page whose stored word is 0xFFFFFFFF is SKIP, whatever COMPUTED is, and SKIP changes nothing. -/
def Obligations.ErasedSubPageIsSkipped : Prop :=
  (∀ (s : State) (i : SubIndex), stepSubPage s = some i → s.storedAt i = 0xFFFFFFFF#32 → fetchAction s = some .skip) ∧
  (∀ s : State, exec .skip s = .next s)

/-- R77: a sub-page whose two words agree, the stored one not the marker, is CLEAN, and CLEAN changes nothing. -/
def Obligations.EqualPairIsClean : Prop :=
  (∀ (s : State) (i : SubIndex), stepSubPage s = some i → s.storedAt i ≠ 0xFFFFFFFF#32 →
    s.storedAt i = s.computedAt i → fetchAction s = some .clean) ∧
  (∀ s : State, exec .clean s = .next s)

/-- R78: a one-hot syndrome is ECCFIX, and ECCFIX adds 1 to NCORR and changes nothing else. -/
def Obligations.OneHotSyndromeCountsACorrection : Prop :=
  (∀ (s : State) (i : SubIndex) (k : Fin 32), stepSubPage s = some i → s.storedAt i ≠ 0xFFFFFFFF#32 →
    s.storedAt i ^^^ s.computedAt i = 1#32 <<< k.val → fetchAction s = some (.eccfix k)) ∧
  (∀ (k : Fin 32) (s : State), exec (.eccfix k) s = .next { s with ncorr := s.ncorr + 1#3 })

/-- R79: a valid signature of two or more bits is DATAFIX; DATAFIX on sub-page SP inverts exactly the bit the syndrome
names, in the byte at `512*SP + byte`, adds 1 to NCORR, and changes nothing else; with the offset all of `odd`, its byte
`odd >> 3` and its bit `odd and 7` (OFFSET_BITS = 12, log entry 9). -/
def Obligations.DatafixFlipsExactlyTheNamedBit : Prop :=
  (∀ (s : State) (i : SubIndex) (f : Syn), stepSubPage s = some i → s.storedAt i ≠ 0xFFFFFFFF#32 →
    f.word = s.storedAt i ^^^ s.computedAt i → 2 ≤ popcount f.word →
    evenOf config f.word ^^^ oddOf config f.word = 0xFFF#12 → fetchAction s = some (.datafix f)) ∧
  (∀ (f : Syn) (s : State), s.sp.toNat < 4 →
    ∃ t : State, exec (.datafix f) s = .next t ∧
      (∀ (a k : Nat), (t.byteAt a).getLsbD k =
        ((s.byteAt a).getLsbD k ^^
          decide (a = dataAddress s.sp.toNat (datafixOffset config f) ∧ k = bitInByte (datafixOffset config f)))) ∧
      t.ncorr = s.ncorr + 1#3 ∧ t.nunc = s.nunc ∧ t.stored = s.stored ∧ t.computed = s.computed ∧ t.sp = s.sp ∧
      t.outcome = s.outcome ∧ t.ph = s.ph ∧ t.log = s.log ∧ t.schedule = s.schedule ∧ t.hostReads = s.hostReads) ∧
  (∀ (f : Syn) (i : Nat), datafixOffset config f = oddOf config f.word ∧
    dataAddress i (datafixOffset config f) = 512 * i + (oddOf config f.word >>> 3).toNat ∧
    bitInByte (datafixOffset config f) = (oddOf config f.word &&& 7#12).toNat)

/-- A DATAFIX performed with SP of 4 or more, which no STEP does, stops with the fault of the address that does not exist
(the model's choice, log entry 6, from the precondition of R30). -/
def Obligations.DatafixOutsideTheSubPagesFaults : Prop :=
  ∀ (f : Syn) (s : State), 4 ≤ s.sp.toNat →
    exec (.datafix f) s = .fault (.dataAddressOutOfRange (dataAddress s.sp.toNat (datafixOffset config f)))

/-- R80: a syndrome of two or more bits that is no valid signature is UNCORR, and UNCORR adds 1 to NUNC and changes
nothing else. -/
def Obligations.InvalidSignatureCountsUncorrectable : Prop :=
  (∀ (s : State) (i : SubIndex) (f : Syn), stepSubPage s = some i → s.storedAt i ≠ 0xFFFFFFFF#32 →
    f.word = s.storedAt i ^^^ s.computedAt i → 2 ≤ popcount f.word →
    evenOf config f.word ^^^ oddOf config f.word ≠ 0xFFF#12 → fetchAction s = some (.uncorr f)) ∧
  (∀ (f : Syn) (s : State), exec (.uncorr f) s = .next { s with nunc := s.nunc + 1#3 })

/-- The frame of the five actions (the spec marks R81 as derived): at most one of the two counts changes, by plus one; only
a DATAFIX changes DATA, only in the byte it names, inside sub-page SP; every other register keeps its value. -/
def Obligations.ActionFrame : Prop :=
  ∀ (i : Instr) (s t : State),
    (i = .skip ∨ i = .clean ∨ (∃ k, i = .eccfix k) ∨ (∃ f, i = .datafix f) ∨ (∃ f, i = .uncorr f)) →
    exec i s = .next t →
    ((t.ncorr = s.ncorr ∧ t.nunc = s.nunc) ∨ (t.ncorr = s.ncorr + 1#3 ∧ t.nunc = s.nunc) ∨
      (t.ncorr = s.ncorr ∧ t.nunc = s.nunc + 1#3)) ∧
    (∀ f, i = .datafix f → ∀ a, a ≠ dataAddress s.sp.toNat (datafixOffset config f) → t.byteAt a = s.byteAt a) ∧
    (∀ f, i = .datafix f → 512 * s.sp.toNat ≤ dataAddress s.sp.toNat (datafixOffset config f) ∧
      dataAddress s.sp.toNat (datafixOffset config f) ≤ 512 * s.sp.toNat + 511) ∧
    ((∀ f, i ≠ .datafix f) → ∀ a, t.byteAt a = s.byteAt a) ∧
    t.stored = s.stored ∧ t.computed = s.computed ∧ t.sp = s.sp ∧ t.outcome = s.outcome ∧ t.ph = s.ph ∧
    t.log = s.log ∧ t.schedule = s.schedule ∧ t.hostReads = s.hostReads

/-! ### The block's transitions -/

/-- R70: STEP is enabled exactly when PH = BUSY and SP < 4; it performs the action the pair of sub-page SP selects and
adds 1 to SP; from SP = 3 it leaves FINISH enabled; no CMD code names it. -/
def Obligations.StepPerformsOneActionAndAdvances : Prop :=
  (∀ s : State, enabledTransition s = some .step ↔ (s.ph = phBusy ∧ s.sp.toNat < 4)) ∧
  (∀ (s : State) (h : s.sp.toNat < 4), s.ph = phBusy →
    ∃ u : State,
      exec (decodePair (s.storedAt ⟨s.sp.toNat, h⟩) (s.computedAt ⟨s.sp.toNat, h⟩)) s = .next u ∧
      exec .step s = .next { u with sp := s.sp + 1#3 } ∧
      (s.sp = 3#3 → enabledTransition { u with sp := s.sp + 1#3 } = some .finish)) ∧
  (∀ code : BitVec 2, decodeCmd code ≠ .step)

/-- STEP and FINISH are refused by name where they are not enabled (the model's choice, log entry 5: there is no such
transition). -/
def Obligations.DisabledTransitionsAreRefused : Prop :=
  (∀ s : State, ¬(s.ph = phBusy ∧ s.sp.toNat < 4) → exec .step s = .refused .stepNotEnabled) ∧
  (∀ s : State, ¬(s.ph = phBusy ∧ s.sp = 4#3) → exec .finish s = .refused .finishNotEnabled)

/-- R87 and R88: FINISH is enabled exactly when PH = BUSY and SP = 4; it sets OUTCOME to the aggregate, appends one log
record with both counts when either is non-zero, sets PH to DONE, and writes nothing else. -/
def Obligations.FinishFormsTheAggregate : Prop :=
  (∀ s : State, enabledTransition s = some .finish ↔ (s.ph = phBusy ∧ s.sp = 4#3)) ∧
  (∀ s : State, s.ph = phBusy → s.sp = 4#3 →
    exec .finish s = .next { s with
      outcome := if s.nunc.toNat > 0 then 3#2 else if s.ncorr.toNat > 0 then 1#2 else 0#2
      log := if s.ncorr.toNat ≠ 0 ∨ s.nunc.toNat ≠ 0 then s.log ++ [{ ncorr := s.ncorr, nunc := s.nunc }] else s.log
      ph := phDone }) ∧
  (∀ code : BitVec 2, decodeCmd code ≠ .finish)

/-- The result codes (R59, R61): read as signed numbers the three outcomes are 0, 1 and -1, and a log record packs ncorr in
bits 5:3 and nunc in bits 2:0. -/
def Obligations.ResultCodes : Prop :=
  outcomeSigned outOk = 0#32 ∧ outcomeSigned outCorrected = 1#32 ∧ outcomeSigned outUncorrectable = 0xFFFFFFFF#32 ∧
  (∀ n m : BitVec 3, aggregate n m ≠ 2#2) ∧
  (∀ r : LogRecord, r.word.extractLsb' 3 3 = r.ncorr ∧ r.word.extractLsb' 0 3 = r.nunc)

/-! ### The step: host and block interleaved (log entry 3) -/

/-- A command the host presents is what the step runs (the schedule is the model's own, log entry 3). -/
def Obligations.StepRunsThePresentedCommand : Prop :=
  ∀ (s : State) (code : BitVec 2) (rest : List Turn), s.schedule = .cmd code :: rest →
    step s = exec (decodeCmd code) { s with schedule := rest }

/-- On the block's turn (its entry at the head of the schedule, or an empty schedule) in BUSY, the step runs the action
that the pair of sub-page SP decodes to and advances SP; with SP = 4 it runs FINISH; and where neither is enabled nothing
but the schedule changes (log entries 3 and 5). -/
def Obligations.StepRunsTheDecodedAction : Prop :=
  ∀ s : State, s.nextTurn = .block →
    (∀ i : Instr, fetchAction s = some i →
      step s = onNext (exec i { s with schedule := s.restOfSchedule }) State.advanceSp) ∧
    (s.ph = phBusy → s.sp = 4#3 → step s = exec .finish { s with schedule := s.restOfSchedule }) ∧
    (enabledTransition s = none → step s = .next { s with schedule := s.restOfSchedule })

/-- An instruction placed by its table word is what the next step runs: a command as itself, an action inside its STEP on
the sub-page the step fetches (log entries 4 and 15). -/
def Obligations.PlacedWordRunsNext : Prop :=
  (∀ (s : State) (w : Nat), w < 4 → ∃ i : Instr, decodeTableWord 8 w = some i ∧ step (s.withFetchWord 8 w) = exec i s) ∧
  (∀ (s : State) (w : Nat), w < 2 ^ 32 →
    ∃ i : Instr, decodeTableWord 32 w = some i ∧ fetchAction (s.withFetchWord 32 w) = some i ∧
      step (s.withFetchWord 32 w) =
        onNext (exec i ((s.withFetchWord 32 w).setSchedule s.schedule)) State.advanceSp)

/-- The host's accesses by phase (R37; that they stand in the schedule, and that what a read returned is recorded, is the
model's choice, log entries 3, 17 and 18): in IDLE and DONE a write sets the byte or word it names and nothing else, and
a read returns it; in BUSY both are refused; the result registers may be read in every phase. -/
def Obligations.HostAccessFollowsThePhaseTable : Prop :=
  (∀ s : State, (s.ph = phIdle ∨ s.ph = phDone) →
    (∀ (a : DataAddr) (v : Byte), ∃ t : State, takeTurn (.ldd a v) s = .next t ∧ t.byteAt a.toNat = v ∧
      (∀ b, b ≠ a.toNat → t.byteAt b = s.byteAt b) ∧ { t with data := s.data } = s) ∧
    (∀ (i : SubIndex) (w : Word), takeTurn (.lds i w) s = .next { s with stored := s.stored.set i.val w }) ∧
    (∀ (i : SubIndex) (w : Word), takeTurn (.ldc i w) s = .next { s with computed := s.computed.set i.val w }) ∧
    (∀ a : DataAddr,
      takeTurn (.rdd a) s = .next { s with hostReads := s.hostReads ++ [.dataByte a (s.byteAt a.toNat)] }) ∧
    (∀ i : SubIndex,
      takeTurn (.rds i) s = .next { s with hostReads := s.hostReads ++ [.storedWord i s.stored[i.val]] }) ∧
    (∀ i : SubIndex,
      takeTurn (.rdc i) s = .next { s with hostReads := s.hostReads ++ [.computedWord i s.computed[i.val]] }) ∧
    takeTurn .block s = .next s) ∧
  (∀ (s : State) (t : Turn), s.ph = phBusy → t.touchesBuffers = true → takeTurn t s = .refused .hostAccessWhileBusy) ∧
  (∀ s : State, takeTurn .rdr s =
    .next { s with hostReads := s.hostReads ++ [.result s.ph s.outcome s.ncorr s.nunc] })

/-- In DONE the host reads SP, which FINISH leaves at 4, and the final counts (R87); in every other phase there is no read
of SP, and it is refused by name (the model's choice, log entry 23; that a read is recorded is log entry 17). -/
def Obligations.HostReadsThePointerInDone : Prop :=
  (∀ s : State, s.ph = phDone → takeTurn .rdsp s = .next { s with hostReads := s.hostReads ++ [.pointer s.sp] }) ∧
  (∀ s t : State, exec .finish s = .next t →
    takeTurn .rdsp t = .next { t with hostReads := s.hostReads ++ [.pointer 4#3] } ∧
    takeTurn .rdr t = .next { t with hostReads := s.hostReads ++ [.result phDone t.outcome s.ncorr s.nunc] }) ∧
  (∀ s : State, s.ph ≠ phDone → takeTurn .rdsp s = .refused .pointerReadOutsideDone)

/-! ### Reset, the invariant, and what no step can do -/

/-- R25: after power-on PH, SP, NCORR, NUNC and OUTCOME are 0 and LOG is empty; the RESET command leaves the same
registers and keeps DATA, STORED, COMPUTED and LOG. -/
def Obligations.ResetValues : Prop :=
  (State.reset.ph = 0#2 ∧ State.reset.sp = 0#3 ∧ State.reset.ncorr = 0#3 ∧ State.reset.nunc = 0#3 ∧
    State.reset.outcome = 0#2 ∧ State.reset.log = []) ∧
  (∀ s : State, ∃ t : State, exec .reset s = .next t ∧ t.ph = 0#2 ∧ t.sp = 0#3 ∧ t.ncorr = 0#3 ∧ t.nunc = 0#3 ∧
    t.outcome = 0#2 ∧ (∀ a, t.byteAt a = s.byteAt a) ∧ t.stored = s.stored ∧ t.computed = s.computed ∧ t.log = s.log)

/-- The invariant (the spec marks R27 as derived) holds after power-on. -/
def Obligations.PowerOnMeetsTheInvariant : Prop := State.reset.Inv

/-- Every step, from every state that meets the invariant, reached or not, leads to a state that meets it: R27 (a) to
(e), the log records of R61, and the memory's canonical form. -/
def Obligations.EveryStepKeepsTheInvariant : Prop :=
  ∀ s t : State, s.Inv → step s = .next t → t.Inv

/-- R95: the block raises no exception: no step faults, from any state; every decoded pair is a well-formed action that
runs to a next state on each of the four sub-pages; an uncorrectable sub-page only adds to NUNC and the operation goes
on. -/
def Obligations.NoStepRaisesAnException : Prop :=
  (∀ (s : State) (r : Fault), step s ≠ .fault r) ∧
  (∀ (s : State) (c d : Word), s.sp.toNat < 4 → (decodePair c d).wf = true ∧ ∃ t : State, exec (decodePair c d) s = .next t) ∧
  (∀ (s : State) (f : Syn), fetchAction s = some (.uncorr f) →
    exec .step s = .next { s with nunc := s.nunc + 1#3, sp := s.sp + 1#3 })

/-- From a state that meets the invariant a step stops only where the host breaks its contract (R37, R63 (d), R121; for a
read of SP, log entry 23): it answers a next state on every lawful turn and refuses every unlawful one. -/
def Obligations.OnlyUnlawfulTurnsStop : Prop :=
  ∀ s : State, s.Inv →
    (s.nextTurn.lawful s = true → ∃ t : State, step s = .next t) ∧
    (s.nextTurn.lawful s = false →
      step s = .refused .reservedCommand ∨ step s = .refused .hostAccessWhileBusy ∨
        step s = .refused .pointerReadOutsideDone)

/-- R14: the ECC words form one register file, STORED then COMPUTED, and no operation of the block writes any of them. -/
def Obligations.BlockNeverWritesTheEccWords : Prop :=
  (∀ (s : State) (i : SubIndex), s.x ⟨i.val, by omega⟩ = s.storedAt i ∧ s.x ⟨4 + i.val, by omega⟩ = s.computedAt i) ∧
  (∀ (i : Instr) (s t : State), exec i s = .next t → ∀ k : Fin 8, t.x k = s.x k)

/-- STORED and COMPUTED change only by a host write (R27 (f)). -/
def Obligations.EccWordsChangeOnlyByHostWrites : Prop :=
  ∀ (s t : State) (i : SubIndex), step s = .next t →
    (t.storedAt i ≠ s.storedAt i → ∃ w : Word, s.nextTurn = .lds i w ∧ t.storedAt i = w) ∧
    (t.computedAt i ≠ s.computedAt i → ∃ w : Word, s.nextTurn = .ldc i w ∧ t.computedAt i = w)

/-- A byte of DATA changes only by a host write of it, or by the DATAFIX of the sub-page SP names, in the byte the
syndrome names (R11, R28). -/
def Obligations.DataChangesOnlyByDatafixOrHostWrite : Prop :=
  ∀ (s t : State) (a : Nat), step s = .next t → t.byteAt a ≠ s.byteAt a →
    (∃ (b : DataAddr) (v : Byte), s.nextTurn = .ldd b v ∧ a = b.toNat ∧ t.byteAt a = v ∧ s.ph ≠ phBusy) ∨
    (∃ f : Syn, s.nextTurn = .block ∧ s.ph = phBusy ∧ fetchAction s = some (.datafix f) ∧
      a = dataAddress s.sp.toNat (datafixOffset config f))

/-- The phase changes only as R19 lists: to BUSY by CORRECT from IDLE or DONE, from BUSY to DONE by FINISH, to IDLE by
RESET. -/
def Obligations.PhaseChangesOnlyAsListed : Prop :=
  ∀ s t : State, step s = .next t → t.ph ≠ s.ph →
    (s.nextTurn = .cmd cmdCorrect ∧ (s.ph = phIdle ∨ s.ph = phDone) ∧ t.ph = phBusy) ∨
    (s.nextTurn = .block ∧ s.ph = phBusy ∧ s.sp = 4#3 ∧ t.ph = phDone) ∨
    (s.nextTurn = .cmd cmdReset ∧ t.ph = phIdle)

/-- SP and the two counts change only as R15, R16 and R17 say: CORRECT and RESET clear them, each STEP adds 1 to SP, each
ECCFIX or DATAFIX adds 1 to NCORR, each UNCORR adds 1 to NUNC. -/
def Obligations.PointerAndCountsChangeOnlyAsListed : Prop :=
  ∀ s t : State, step s = .next t →
    (((s.nextTurn = .cmd cmdCorrect ∧ s.ph ≠ phBusy) ∨ s.nextTurn = .cmd cmdReset) ∧
      t.sp = 0#3 ∧ t.ncorr = 0#3 ∧ t.nunc = 0#3) ∨
    (∃ i : Instr, s.nextTurn = .block ∧ fetchAction s = some i ∧ t.sp = s.sp + 1#3 ∧
      t.ncorr = (match i with
        | .eccfix _ => s.ncorr + 1#3
        | .datafix _ => s.ncorr + 1#3
        | _ => s.ncorr) ∧
      t.nunc = (match i with
        | .uncorr _ => s.nunc + 1#3
        | _ => s.nunc)) ∨
    (t.sp = s.sp ∧ t.ncorr = s.ncorr ∧ t.nunc = s.nunc)

/-- LOG only grows, and only at FINISH, by the record of the final counts when one of them is non-zero (R20). -/
def Obligations.LogGrowsOnlyAtFinish : Prop :=
  ∀ s t : State, step s = .next t →
    t.log = s.log ∨
    (s.nextTurn = .block ∧ s.ph = phBusy ∧ s.sp = 4#3 ∧ (s.ncorr ≠ 0#3 ∨ s.nunc ≠ 0#3) ∧
      t.log = s.log ++ [{ ncorr := s.ncorr, nunc := s.nunc }])

/-- No action's behaviour depends on NCORR, NUNC, OUTCOME or LOG (the spec marks R22 as derived): two states that agree on
the buffers, SP and PH step to states that agree on them, with the same increments of the counts. -/
def Obligations.StepIsBlindToCountsOutcomeAndLog : Prop :=
  ∀ s s' : State, s'.data = s.data → s'.stored = s.stored → s'.computed = s.computed → s'.sp = s.sp →
    s'.ph = s.ph → s.ph = phBusy → s.sp.toNat < 4 →
    ∃ t t' : State, exec .step s = .next t ∧ exec .step s' = .next t' ∧
      t'.data = t.data ∧ t'.stored = t.stored ∧ t'.computed = t.computed ∧ t'.sp = t.sp ∧ t'.ph = t.ph ∧
      t'.ncorr - s'.ncorr = t.ncorr - s.ncorr ∧ t'.nunc - s'.nunc = t.nunc - s.nunc

/-! ### The whole operation -/

/-- A STEP is `SubAction` on the slice of its sub-page (the spec marks R86 as derived). -/
def Obligations.StepIsSubAction : Prop :=
  ∀ (s : State) (i : SubIndex), stepSubPage s = some i →
    ∃ t : State, exec .step s = .next t ∧
      t.page = withSlice s.page i (subAction config (sliceOf s.page i) (s.storedAt i) (s.computedAt i)).data ∧
      t.ncorr = s.ncorr +
        BitVec.ofNat 3 (subAction config (sliceOf s.page i) (s.storedAt i) (s.computedAt i)).dcorr ∧
      t.nunc = s.nunc +
        BitVec.ofNat 3 (subAction config (sliceOf s.page i) (s.storedAt i) (s.computedAt i)).dunc ∧
      t.sp = s.sp + 1#3

/-- Termination (the spec marks R73 and R119 as derived): a BUSY block that the host leaves alone takes its remaining STEPs
and one FINISH and is then in DONE, and not before. -/
def Obligations.BusyBlockReachesDone : Prop :=
  ∀ s : State, s.ph = phBusy → s.sp.toNat ≤ 4 → s.schedule = [] →
    (∃ t : State, Host.Core.run core (5 - s.sp.toNat) s = .next t ∧ t.ph = phDone ∧ t.sp = 4#3) ∧
    (∀ k : Nat, k < 5 - s.sp.toNat →
      ∃ t : State, Host.Core.run core k s = .next t ∧ t.ph = phBusy ∧ t.sp.toNat = s.sp.toNat + k)

/-- The step machine computes `CorrectPage` (the spec marks R91 as derived; R90 is the function): from any state in IDLE or
DONE, an accepted CORRECT followed by five turns of the block, with dropped CORRECTs, empty commands and reads of the
result registers anywhere between them, ends in DONE with the page, the outcome, the counts and the log of
`CorrectPage`, and with STORED and COMPUTED as they were. -/
def Obligations.StepMachineComputesCorrectPage : Prop :=
  ∀ (s : State) (between rest : List Turn),
    (s.ph = phIdle ∨ s.ph = phDone) →
    s.schedule = .cmd cmdCorrect :: (between ++ .block :: rest) →
    (∀ t ∈ between, t.insideOperation = true) → between.count .block = 4 →
    ∃ t : State, Host.Core.run core (between.length + 2) s = .next t ∧
      t.page = (correctPage config s.page s.stored s.computed).data ∧
      t.outcome = (correctPage config s.page s.stored s.computed).outcome ∧
      t.ncorr.toNat = (correctPage config s.page s.stored s.computed).ncorr ∧
      t.nunc.toNat = (correctPage config s.page s.stored s.computed).nunc ∧
      t.log = s.log ++ (correctPage config s.page s.stored s.computed).log ∧
      t.sp = 4#3 ∧ t.ph = phDone ∧ t.stored = s.stored ∧ t.computed = s.computed ∧ t.schedule = rest

/-- A RESET after k STEPs of an operation (the spec marks R109 as derived): the first k sub-pages have been acted on, the
others have not, at most k bits differ from the loaded page, OUTCOME reads 0 and no log record is emitted. -/
def Obligations.ResetAbandonsTheOperation : Prop :=
  ∀ (s : State) (k : Nat) (rest : List Turn), k ≤ 4 → (s.ph = phIdle ∨ s.ph = phDone) →
    s.schedule = .cmd cmdCorrect :: (List.replicate k .block ++ .cmd cmdReset :: rest) →
    ∃ t : State, Host.Core.run core (k + 2) s = .next t ∧ t.ph = phIdle ∧ t.outcome = outOk ∧ t.log = s.log ∧
      t.page = (processPage config s.page s.stored s.computed (([0, 1, 2, 3] : List SubIndex).take k)).data ∧
      bitDifference s.page t.page ≤ k ∧
      (∀ a : Nat, 512 * k ≤ a → t.byteAt a = s.byteAt a)

/-- The final result does not depend on the order in which the sub-pages are processed (the spec marks R72 as derived), for
every configuration. -/
def Obligations.OrderOfSubPagesDoesNotMatter : Prop :=
  ∀ (cfg : Config) (D : Page) (S C : Vector Word 4) (order : List SubIndex), order.Perm [0, 1, 2, 3] →
    processPage cfg D S C order = processPage cfg D S C [0, 1, 2, 3]

/-- A second CORRECT on the same ECC words undoes every flip of the first and reports the same outcome and counts (the spec
marks R35 as derived). -/
def Obligations.SecondCorrectRestoresThePage : Prop :=
  ∀ (cfg : Config) (D : Page) (S C : Vector Word 4),
    (correctPage cfg (correctPage cfg D S C).data S C).data = D ∧
    (correctPage cfg (correctPage cfg D S C).data S C).outcome = (correctPage cfg D S C).outcome ∧
    (correctPage cfg (correctPage cfg D S C).data S C).ncorr = (correctPage cfg D S C).ncorr ∧
    (correctPage cfg (correctPage cfg D S C).data S C).nunc = (correctPage cfg D S C).nunc

/-- The bounds that hold of every result (the spec marks R92 as derived), for every configuration. -/
def Obligations.CorrectPageBounds : Prop :=
  ∀ (cfg : Config) (D : Page) (S C : Vector Word 4),
    (correctPage cfg D S C).ncorr + (correctPage cfg D S C).nunc ≤ 4 ∧
    bitDifference D (correctPage cfg D S C).data =
      (List.finRange 4).countP (fun i => isDatafixPair cfg S[i.val] C[i.val]) ∧
    bitDifference D (correctPage cfg D S C).data ≤ (correctPage cfg D S C).ncorr ∧
    ((correctPage cfg D S C).outcome = outOk ↔
      (correctPage cfg D S C).ncorr = 0 ∧ (correctPage cfg D S C).nunc = 0) ∧
    ((correctPage cfg D S C).outcome = outOk →
      (correctPage cfg D S C).data = D ∧ (correctPage cfg D S C).log = []) ∧
    (correctPage cfg D S C).outcome ≠ 2#2

/-- The source's property (a), R93: with all syndromes zero the outcome is OK, the data unchanged, nothing counted or
logged. -/
def Obligations.AllZeroSyndromesAreOk : Prop :=
  ∀ (cfg : Config) (D : Page) (S C : Vector Word 4), (∀ i : SubIndex, S[i.val] = C[i.val]) →
    correctPage cfg D S C = { data := D, outcome := outOk, ncorr := 0, nunc := 0, log := [] }

/-- The source's property (b), R93: a one-hot syndrome in one sub-page, every other sub-page skipped or clean, is CORRECTED
with the data unchanged. -/
def Obligations.OneHotSyndromeAloneIsCorrected : Prop :=
  ∀ (cfg : Config) (D : Page) (S C : Vector Word 4) (i : SubIndex) (k : Fin 32),
    S[i.val] ≠ erased → S[i.val] ^^^ C[i.val] = 1#32 <<< k.val →
    (∀ j : SubIndex, j ≠ i → S[j.val] = erased ∨ S[j.val] = C[j.val]) →
    (correctPage cfg D S C).outcome = outCorrected ∧ (correctPage cfg D S C).data = D ∧
      (correctPage cfg D S C).ncorr = 1 ∧ (correctPage cfg D S C).nunc = 0

/-- The source's property (c), R93, first half: a valid signature in one sub-page, every other sub-page skipped or clean,
is CORRECTED with exactly the bit at the decoded offset flipped. -/
def Obligations.ValidSignatureAloneFlipsOneBit : Prop :=
  ∀ (D : Page) (S C : Vector Word 4) (i : SubIndex),
    S[i.val] ≠ erased → validSignature config (S[i.val] ^^^ C[i.val]) = true →
    (∀ j : SubIndex, j ≠ i → S[j.val] = erased ∨ S[j.val] = C[j.val]) →
    (correctPage config D S C).outcome = outCorrected ∧ bitDifference D (correctPage config D S C).data = 1 ∧
      sliceOf (correctPage config D S C).data i = flipAt (sliceOf D i) (oddOf config (S[i.val] ^^^ C[i.val])) ∧
      (∀ j : SubIndex, j ≠ i → sliceOf (correctPage config D S C).data j = sliceOf D j)

/-- The source's property (c), R93, second half: for any generator with `GenLinear`, if the computed ECC is the
generator's of the delivered sub-page and the syndrome is a valid signature with the unused bits zero, then the ECC of
the result is the stored one, so a second run with the recomputed ECC finds the sub-page clean. -/
def Obligations.RecomputedEccIsClean : Prop :=
  ∀ (gen : SubPage → Word), GenLinear gen →
    ∀ (D : Page) (S C : Vector Word 4) (i : SubIndex),
      S[i.val] ≠ erased → C[i.val] = gen (sliceOf D i) →
      validSignature config (S[i.val] ^^^ C[i.val]) = true → (S[i.val] ^^^ C[i.val]) &&& 0x00F000F0#32 = 0#32 →
      gen (sliceOf (correctPage config D S C).data i) = S[i.val] ∧
      classOf config S[i.val] (gen (sliceOf (correctPage config D S C).data i)) = .clean

/-- The source's property (d), R93: one sub-page of class UNCORR makes the page UNCORRECTABLE, whatever the others are. -/
def Obligations.OneUncorrectableSubPageOverrides : Prop :=
  ∀ (cfg : Config) (D : Page) (S C : Vector Word 4) (i : SubIndex),
    S[i.val] ≠ erased → 2 ≤ popcount (S[i.val] ^^^ C[i.val]) → validSignature cfg (S[i.val] ^^^ C[i.val]) = false →
    (correctPage cfg D S C).outcome = outUncorrectable

/-- The source's property (e), R93: a sub-page whose stored word is the erased marker keeps its data and adds to neither
count, for every computed word and whatever the other pairs are. -/
def Obligations.ErasedSubPageIsLeftAlone : Prop :=
  ∀ (cfg : Config) (D : Page) (S C : Vector Word 4) (i : SubIndex) (c : Word), S[i.val] = erased →
    sliceOf (correctPage cfg D S C).data i = sliceOf D i ∧
    correctPage cfg D S (C.set i.val c) = correctPage cfg D S C ∧
    (correctPage cfg D S C).ncorr + (correctPage cfg D S C).nunc ≤ 3

/-- The block repairs any single wrong data bit of a page protected by a linear generator (section 4's consequence, with
OFFSET_BITS = 12): from the page with one bit of one sub-page inverted, its four stored words those of the original page
and its four computed words those of the damaged one, `CorrectPage` gives the original page back, and the outcome
CORRECTED. -/
def Obligations.SingleBitErrorIsRepaired : Prop :=
  ∀ (gen : SubPage → Word), GenLinear gen → (∀ d, gen d ≠ erased) →
    ∀ (D : Page) (S C : Vector Word 4) (i : SubIndex) (a : Half),
      (∀ j : SubIndex, S[j.val] = gen (sliceOf D j)) →
      (∀ j : SubIndex, C[j.val] = gen (sliceOf (withSlice D i (flipAt (sliceOf D i) a)) j)) →
      (correctPage config (withSlice D i (flipAt (sliceOf D i) a)) S C).data = D ∧
      (correctPage config (withSlice D i (flipAt (sliceOf D i) a)) S C).outcome = outCorrected
end

