-- ==== Sys2Proof/Laws/Decode.lean ====
section
/-! SUPPORT. The fields of the syndrome, the single-bit test, and what the class decode can answer. -/

namespace Sys2Proof

@[simp] theorem Syn.ofWord_word (f : Syn) : Syn.ofWord f.word = f := by
  obtain ⟨el, u1, eh, ol, u0, oh⟩ := f
  simp only [Syn.ofWord, Syn.word, Syn.mk.injEq]
  refine ⟨?_, ?_, ?_, ?_, ?_, ?_⟩ <;>
  · apply BitVec.eq_of_getLsbD_eq
    intro i hi
    simp only [BitVec.getLsbD_extractLsb', BitVec.getLsbD_append]
    interval_cases i <;> simp

@[simp] theorem Syn.word_ofWord (w : Word) : (Syn.ofWord w).word = w := by
  apply BitVec.eq_of_getLsbD_eq
  intro i hi
  simp only [Syn.ofWord, Syn.word, BitVec.getLsbD_append, BitVec.getLsbD_extractLsb']
  interval_cases i <;> simp

theorem eccWord_bytes (order : ByteOrder) (w : Word) :
    eccWord order (w.extractLsb' 24 8) (w.extractLsb' 16 8) (w.extractLsb' 8 8) (w.extractLsb' 0 8) =
      match order with
      | .bigEndian => w
      | .littleEndian =>
        w.extractLsb' 0 8 ++ w.extractLsb' 8 8 ++ w.extractLsb' 16 8 ++ w.extractLsb' 24 8 := by
  cases order
  · apply BitVec.eq_of_getLsbD_eq
    intro i hi
    simp only [eccWord, BitVec.getLsbD_append, BitVec.getLsbD_extractLsb']
    interval_cases i <;> simp
  · rfl

/-- A one-hot word has its bit at the index `bitIndex` finds. -/
theorem Machine.bitIndex_shift (k : Fin 32) : Machine.bitIndex (1#32 <<< k.val) = k := by
  revert k
  decide

theorem Machine.atMostOneBit_shift (k : Fin 32) : Machine.atMostOneBit (1#32 <<< k.val) = true := by
  revert k
  decide

theorem Machine.shift_ne_zero (k : Fin 32) : 1#32 <<< k.val ≠ 0#32 := by
  revert k
  decide

/-- The number of 1 bits, as the size of the set of their positions. -/
theorem Machine.popcount_eq_card {n : Nat} (v : BitVec n) :
    Machine.popcount v = ((Finset.range n).filter (fun k => v.getLsbD k = true)).card := by
  unfold Machine.popcount
  rw [List.countP_eq_length_filter, ← List.toFinset_card_of_nodup (List.nodup_range.filter _)]
  congr 1
  ext k
  simp

/-- A non-zero word that passes the single-bit test is a power of two, at the index `bitIndex` finds (R52). -/
theorem Machine.eq_shift_of_atMostOneBit {w : Word} (h0 : w ≠ 0#32) (h1 : Machine.atMostOneBit w = true) :
    w = 1#32 <<< (Machine.bitIndex w).val := by
  have hw : w.toNat ≠ 0 := fun h => h0 (BitVec.eq_of_toNat_eq h)
  have hlt : w.toNat < 2 ^ 32 := w.isLt
  have hk : Nat.log2 w.toNat < 32 := (Nat.log2_lt hw).2 hlt
  have hle : 2 ^ Nat.log2 w.toNat ≤ w.toNat := Nat.log2_self_le hw
  have hand : (w.toNat - 1) &&& w.toNat = 0 := by
    have h := congrArg BitVec.toNat (eq_of_beq h1)
    rw [BitVec.toNat_and, BitVec.toNat_sub_of_le (by simp [BitVec.le_def]; omega)] at h
    simpa using h
  have heq : w.toNat = 2 ^ Nat.log2 w.toNat := by
    by_contra hne
    have hbit : ((w.toNat - 1) &&& w.toNat).testBit (Nat.log2 w.toNat) = true := by
      rw [Nat.testBit_and, Bool.and_eq_true]
      have hup : w.toNat < 2 ^ (Nat.log2 w.toNat + 1) := Nat.lt_log2_self
      exact ⟨Nat.testBit_of_two_pow_le_and_two_pow_add_one_gt (by omega) (by omega),
        Nat.testBit_of_two_pow_le_and_two_pow_add_one_gt hle hup⟩
    rw [hand] at hbit
    simp at hbit
  apply BitVec.eq_of_toNat_eq
  have hidx : (Machine.bitIndex w).val = Nat.log2 w.toNat := Nat.mod_eq_of_lt hk
  rw [hidx, BitVec.toNat_shiftLeft, Nat.shiftLeft_eq]
  simp only [BitVec.toNat_ofNat, Nat.one_mod_two_pow_eq_one.2 (by decide : 0 < 32), Nat.one_mul]
  rw [Nat.mod_eq_of_lt (Nat.pow_lt_pow_right (by decide) hk)]
  exact heq

/-- One bit set is a power of two. -/
theorem Machine.popcount_eq_one {w : Word} (h : Machine.popcount w = 1) : ∃ k : Fin 32, w = 1#32 <<< k.val := by
  rw [Machine.popcount_eq_card, Finset.card_eq_one] at h
  obtain ⟨k, hk⟩ := h
  have hmem : k ∈ (Finset.range 32).filter (fun k => w.getLsbD k = true) := hk ▸ Finset.mem_singleton_self k
  have hlt : k < 32 := Finset.mem_range.1 (Finset.mem_filter.1 hmem).1
  refine ⟨⟨k, hlt⟩, BitVec.eq_of_getLsbD_eq fun i hi => ?_⟩
  have hi' : w.getLsbD i = true ↔ i = k := by
    rw [← Finset.mem_singleton (a := k), ← hk]
    simp [hi]
  by_cases h : i = k
  · subst h
    simp [hi'.2 rfl, hi]
  · have : w.getLsbD i = false := by simpa using fun hb => h (hi'.1 hb)
    rw [this]
    simp only [BitVec.getLsbD_shiftLeft, BitVec.getLsbD_one]
    symm
    simp
    omega

theorem Machine.popcount_shift (k : Fin 32) : Machine.popcount (1#32 <<< k.val) = 1 := by
  revert k
  decide

theorem Machine.popcount_eq_zero {w : Word} (h : Machine.popcount w = 0) : w = 0#32 := by
  rw [Machine.popcount_eq_card, Finset.card_eq_zero, Finset.filter_eq_empty_iff] at h
  exact BitVec.eq_of_getLsbD_eq fun i hi => by simpa using h (Finset.mem_range.2 hi)

/-- Two or more bits set: neither zero nor one bit. -/
theorem Machine.two_le_popcount {w : Word} : 2 ≤ Machine.popcount w ↔ w ≠ 0#32 ∧ Machine.atMostOneBit w = false := by
  constructor
  · intro h
    refine ⟨fun h0 => by subst h0; exact absurd h (by decide), ?_⟩
    by_contra hb
    have hb' : Machine.atMostOneBit w = true := by simpa using hb
    by_cases h0 : w = 0#32
    · subst h0
      exact absurd h (by decide)
    · rw [Machine.eq_shift_of_atMostOneBit h0 hb', Machine.popcount_shift] at h
      omega
  · rintro ⟨h0, h1⟩
    by_contra hlt
    rcases (by omega : Machine.popcount w = 0 ∨ Machine.popcount w = 1) with h | h
    · exact h0 (Machine.popcount_eq_zero h)
    · obtain ⟨k, rfl⟩ := Machine.popcount_eq_one h
      simp [Machine.atMostOneBit_shift] at h1

end Sys2Proof
end

