-- ==== Sys2Proof/Laws/State.lean ====
section
/-! SUPPORT. One lemma for each field of State under each update, and the fields of the shared updates. -/

namespace Sys2Proof.Machine

@[simp] theorem phIdle_ne_phBusy : phIdle ≠ phBusy := by decide
@[simp] theorem phIdle_ne_phDone : phIdle ≠ phDone := by decide
@[simp] theorem phBusy_ne_phIdle : phBusy ≠ phIdle := by decide
@[simp] theorem phBusy_ne_phDone : phBusy ≠ phDone := by decide
@[simp] theorem phDone_ne_phIdle : phDone ≠ phIdle := by decide
@[simp] theorem phDone_ne_phBusy : phDone ≠ phBusy := by decide

variable (s : State)

@[simp] theorem State.setData_data (m : Memory) : (s.setData m).data = m := rfl
@[simp] theorem State.setData_stored (m : Memory) : (s.setData m).stored = s.stored := rfl
@[simp] theorem State.setData_computed (m : Memory) : (s.setData m).computed = s.computed := rfl
@[simp] theorem State.setData_sp (m : Memory) : (s.setData m).sp = s.sp := rfl
@[simp] theorem State.setData_ncorr (m : Memory) : (s.setData m).ncorr = s.ncorr := rfl
@[simp] theorem State.setData_nunc (m : Memory) : (s.setData m).nunc = s.nunc := rfl
@[simp] theorem State.setData_outcome (m : Memory) : (s.setData m).outcome = s.outcome := rfl
@[simp] theorem State.setData_ph (m : Memory) : (s.setData m).ph = s.ph := rfl
@[simp] theorem State.setData_log (m : Memory) : (s.setData m).log = s.log := rfl
@[simp] theorem State.setData_schedule (m : Memory) : (s.setData m).schedule = s.schedule := rfl
@[simp] theorem State.setData_hostReads (m : Memory) : (s.setData m).hostReads = s.hostReads := rfl

@[simp] theorem State.setStored_data (i : SubIndex) (w : Word) : (s.setStored i w).data = s.data := rfl
@[simp] theorem State.setStored_stored (i : SubIndex) (w : Word) : (s.setStored i w).stored = s.stored.set i.val w := rfl
@[simp] theorem State.setStored_computed (i : SubIndex) (w : Word) : (s.setStored i w).computed = s.computed := rfl
@[simp] theorem State.setStored_sp (i : SubIndex) (w : Word) : (s.setStored i w).sp = s.sp := rfl
@[simp] theorem State.setStored_ncorr (i : SubIndex) (w : Word) : (s.setStored i w).ncorr = s.ncorr := rfl
@[simp] theorem State.setStored_nunc (i : SubIndex) (w : Word) : (s.setStored i w).nunc = s.nunc := rfl
@[simp] theorem State.setStored_outcome (i : SubIndex) (w : Word) : (s.setStored i w).outcome = s.outcome := rfl
@[simp] theorem State.setStored_ph (i : SubIndex) (w : Word) : (s.setStored i w).ph = s.ph := rfl
@[simp] theorem State.setStored_log (i : SubIndex) (w : Word) : (s.setStored i w).log = s.log := rfl
@[simp] theorem State.setStored_schedule (i : SubIndex) (w : Word) : (s.setStored i w).schedule = s.schedule := rfl
@[simp] theorem State.setStored_hostReads (i : SubIndex) (w : Word) : (s.setStored i w).hostReads = s.hostReads := rfl

@[simp] theorem State.setComputed_data (i : SubIndex) (w : Word) : (s.setComputed i w).data = s.data := rfl
@[simp] theorem State.setComputed_stored (i : SubIndex) (w : Word) : (s.setComputed i w).stored = s.stored := rfl
@[simp] theorem State.setComputed_computed (i : SubIndex) (w : Word) : (s.setComputed i w).computed = s.computed.set i.val w := rfl
@[simp] theorem State.setComputed_sp (i : SubIndex) (w : Word) : (s.setComputed i w).sp = s.sp := rfl
@[simp] theorem State.setComputed_ncorr (i : SubIndex) (w : Word) : (s.setComputed i w).ncorr = s.ncorr := rfl
@[simp] theorem State.setComputed_nunc (i : SubIndex) (w : Word) : (s.setComputed i w).nunc = s.nunc := rfl
@[simp] theorem State.setComputed_outcome (i : SubIndex) (w : Word) : (s.setComputed i w).outcome = s.outcome := rfl
@[simp] theorem State.setComputed_ph (i : SubIndex) (w : Word) : (s.setComputed i w).ph = s.ph := rfl
@[simp] theorem State.setComputed_log (i : SubIndex) (w : Word) : (s.setComputed i w).log = s.log := rfl
@[simp] theorem State.setComputed_schedule (i : SubIndex) (w : Word) : (s.setComputed i w).schedule = s.schedule := rfl
@[simp] theorem State.setComputed_hostReads (i : SubIndex) (w : Word) : (s.setComputed i w).hostReads = s.hostReads := rfl

@[simp] theorem State.setSp_data (v : BitVec 3) : (s.setSp v).data = s.data := rfl
@[simp] theorem State.setSp_stored (v : BitVec 3) : (s.setSp v).stored = s.stored := rfl
@[simp] theorem State.setSp_computed (v : BitVec 3) : (s.setSp v).computed = s.computed := rfl
@[simp] theorem State.setSp_sp (v : BitVec 3) : (s.setSp v).sp = v := rfl
@[simp] theorem State.setSp_ncorr (v : BitVec 3) : (s.setSp v).ncorr = s.ncorr := rfl
@[simp] theorem State.setSp_nunc (v : BitVec 3) : (s.setSp v).nunc = s.nunc := rfl
@[simp] theorem State.setSp_outcome (v : BitVec 3) : (s.setSp v).outcome = s.outcome := rfl
@[simp] theorem State.setSp_ph (v : BitVec 3) : (s.setSp v).ph = s.ph := rfl
@[simp] theorem State.setSp_log (v : BitVec 3) : (s.setSp v).log = s.log := rfl
@[simp] theorem State.setSp_schedule (v : BitVec 3) : (s.setSp v).schedule = s.schedule := rfl
@[simp] theorem State.setSp_hostReads (v : BitVec 3) : (s.setSp v).hostReads = s.hostReads := rfl

@[simp] theorem State.setNcorr_data (v : BitVec 3) : (s.setNcorr v).data = s.data := rfl
@[simp] theorem State.setNcorr_stored (v : BitVec 3) : (s.setNcorr v).stored = s.stored := rfl
@[simp] theorem State.setNcorr_computed (v : BitVec 3) : (s.setNcorr v).computed = s.computed := rfl
@[simp] theorem State.setNcorr_sp (v : BitVec 3) : (s.setNcorr v).sp = s.sp := rfl
@[simp] theorem State.setNcorr_ncorr (v : BitVec 3) : (s.setNcorr v).ncorr = v := rfl
@[simp] theorem State.setNcorr_nunc (v : BitVec 3) : (s.setNcorr v).nunc = s.nunc := rfl
@[simp] theorem State.setNcorr_outcome (v : BitVec 3) : (s.setNcorr v).outcome = s.outcome := rfl
@[simp] theorem State.setNcorr_ph (v : BitVec 3) : (s.setNcorr v).ph = s.ph := rfl
@[simp] theorem State.setNcorr_log (v : BitVec 3) : (s.setNcorr v).log = s.log := rfl
@[simp] theorem State.setNcorr_schedule (v : BitVec 3) : (s.setNcorr v).schedule = s.schedule := rfl
@[simp] theorem State.setNcorr_hostReads (v : BitVec 3) : (s.setNcorr v).hostReads = s.hostReads := rfl

@[simp] theorem State.setNunc_data (v : BitVec 3) : (s.setNunc v).data = s.data := rfl
@[simp] theorem State.setNunc_stored (v : BitVec 3) : (s.setNunc v).stored = s.stored := rfl
@[simp] theorem State.setNunc_computed (v : BitVec 3) : (s.setNunc v).computed = s.computed := rfl
@[simp] theorem State.setNunc_sp (v : BitVec 3) : (s.setNunc v).sp = s.sp := rfl
@[simp] theorem State.setNunc_ncorr (v : BitVec 3) : (s.setNunc v).ncorr = s.ncorr := rfl
@[simp] theorem State.setNunc_nunc (v : BitVec 3) : (s.setNunc v).nunc = v := rfl
@[simp] theorem State.setNunc_outcome (v : BitVec 3) : (s.setNunc v).outcome = s.outcome := rfl
@[simp] theorem State.setNunc_ph (v : BitVec 3) : (s.setNunc v).ph = s.ph := rfl
@[simp] theorem State.setNunc_log (v : BitVec 3) : (s.setNunc v).log = s.log := rfl
@[simp] theorem State.setNunc_schedule (v : BitVec 3) : (s.setNunc v).schedule = s.schedule := rfl
@[simp] theorem State.setNunc_hostReads (v : BitVec 3) : (s.setNunc v).hostReads = s.hostReads := rfl

@[simp] theorem State.setOutcome_data (v : BitVec 2) : (s.setOutcome v).data = s.data := rfl
@[simp] theorem State.setOutcome_stored (v : BitVec 2) : (s.setOutcome v).stored = s.stored := rfl
@[simp] theorem State.setOutcome_computed (v : BitVec 2) : (s.setOutcome v).computed = s.computed := rfl
@[simp] theorem State.setOutcome_sp (v : BitVec 2) : (s.setOutcome v).sp = s.sp := rfl
@[simp] theorem State.setOutcome_ncorr (v : BitVec 2) : (s.setOutcome v).ncorr = s.ncorr := rfl
@[simp] theorem State.setOutcome_nunc (v : BitVec 2) : (s.setOutcome v).nunc = s.nunc := rfl
@[simp] theorem State.setOutcome_outcome (v : BitVec 2) : (s.setOutcome v).outcome = v := rfl
@[simp] theorem State.setOutcome_ph (v : BitVec 2) : (s.setOutcome v).ph = s.ph := rfl
@[simp] theorem State.setOutcome_log (v : BitVec 2) : (s.setOutcome v).log = s.log := rfl
@[simp] theorem State.setOutcome_schedule (v : BitVec 2) : (s.setOutcome v).schedule = s.schedule := rfl
@[simp] theorem State.setOutcome_hostReads (v : BitVec 2) : (s.setOutcome v).hostReads = s.hostReads := rfl

@[simp] theorem State.setPh_data (v : BitVec 2) : (s.setPh v).data = s.data := rfl
@[simp] theorem State.setPh_stored (v : BitVec 2) : (s.setPh v).stored = s.stored := rfl
@[simp] theorem State.setPh_computed (v : BitVec 2) : (s.setPh v).computed = s.computed := rfl
@[simp] theorem State.setPh_sp (v : BitVec 2) : (s.setPh v).sp = s.sp := rfl
@[simp] theorem State.setPh_ncorr (v : BitVec 2) : (s.setPh v).ncorr = s.ncorr := rfl
@[simp] theorem State.setPh_nunc (v : BitVec 2) : (s.setPh v).nunc = s.nunc := rfl
@[simp] theorem State.setPh_outcome (v : BitVec 2) : (s.setPh v).outcome = s.outcome := rfl
@[simp] theorem State.setPh_ph (v : BitVec 2) : (s.setPh v).ph = v := rfl
@[simp] theorem State.setPh_log (v : BitVec 2) : (s.setPh v).log = s.log := rfl
@[simp] theorem State.setPh_schedule (v : BitVec 2) : (s.setPh v).schedule = s.schedule := rfl
@[simp] theorem State.setPh_hostReads (v : BitVec 2) : (s.setPh v).hostReads = s.hostReads := rfl

@[simp] theorem State.emitLog_data (r : List LogRecord) : (s.emitLog r).data = s.data := rfl
@[simp] theorem State.emitLog_stored (r : List LogRecord) : (s.emitLog r).stored = s.stored := rfl
@[simp] theorem State.emitLog_computed (r : List LogRecord) : (s.emitLog r).computed = s.computed := rfl
@[simp] theorem State.emitLog_sp (r : List LogRecord) : (s.emitLog r).sp = s.sp := rfl
@[simp] theorem State.emitLog_ncorr (r : List LogRecord) : (s.emitLog r).ncorr = s.ncorr := rfl
@[simp] theorem State.emitLog_nunc (r : List LogRecord) : (s.emitLog r).nunc = s.nunc := rfl
@[simp] theorem State.emitLog_outcome (r : List LogRecord) : (s.emitLog r).outcome = s.outcome := rfl
@[simp] theorem State.emitLog_ph (r : List LogRecord) : (s.emitLog r).ph = s.ph := rfl
@[simp] theorem State.emitLog_log (r : List LogRecord) : (s.emitLog r).log = s.log ++ r := rfl
@[simp] theorem State.emitLog_schedule (r : List LogRecord) : (s.emitLog r).schedule = s.schedule := rfl
@[simp] theorem State.emitLog_hostReads (r : List LogRecord) : (s.emitLog r).hostReads = s.hostReads := rfl

@[simp] theorem State.setSchedule_data (q : List Turn) : (s.setSchedule q).data = s.data := rfl
@[simp] theorem State.setSchedule_stored (q : List Turn) : (s.setSchedule q).stored = s.stored := rfl
@[simp] theorem State.setSchedule_computed (q : List Turn) : (s.setSchedule q).computed = s.computed := rfl
@[simp] theorem State.setSchedule_sp (q : List Turn) : (s.setSchedule q).sp = s.sp := rfl
@[simp] theorem State.setSchedule_ncorr (q : List Turn) : (s.setSchedule q).ncorr = s.ncorr := rfl
@[simp] theorem State.setSchedule_nunc (q : List Turn) : (s.setSchedule q).nunc = s.nunc := rfl
@[simp] theorem State.setSchedule_outcome (q : List Turn) : (s.setSchedule q).outcome = s.outcome := rfl
@[simp] theorem State.setSchedule_ph (q : List Turn) : (s.setSchedule q).ph = s.ph := rfl
@[simp] theorem State.setSchedule_log (q : List Turn) : (s.setSchedule q).log = s.log := rfl
@[simp] theorem State.setSchedule_schedule (q : List Turn) : (s.setSchedule q).schedule = q := rfl
@[simp] theorem State.setSchedule_hostReads (q : List Turn) : (s.setSchedule q).hostReads = s.hostReads := rfl

@[simp] theorem State.recordRead_data (r : Reading) : (s.recordRead r).data = s.data := rfl
@[simp] theorem State.recordRead_stored (r : Reading) : (s.recordRead r).stored = s.stored := rfl
@[simp] theorem State.recordRead_computed (r : Reading) : (s.recordRead r).computed = s.computed := rfl
@[simp] theorem State.recordRead_sp (r : Reading) : (s.recordRead r).sp = s.sp := rfl
@[simp] theorem State.recordRead_ncorr (r : Reading) : (s.recordRead r).ncorr = s.ncorr := rfl
@[simp] theorem State.recordRead_nunc (r : Reading) : (s.recordRead r).nunc = s.nunc := rfl
@[simp] theorem State.recordRead_outcome (r : Reading) : (s.recordRead r).outcome = s.outcome := rfl
@[simp] theorem State.recordRead_ph (r : Reading) : (s.recordRead r).ph = s.ph := rfl
@[simp] theorem State.recordRead_log (r : Reading) : (s.recordRead r).log = s.log := rfl
@[simp] theorem State.recordRead_schedule (r : Reading) : (s.recordRead r).schedule = s.schedule := rfl
@[simp] theorem State.recordRead_hostReads (r : Reading) : (s.recordRead r).hostReads = s.hostReads ++ [r] := rfl

@[simp] theorem State.clearResult_data : s.clearResult.data = s.data := rfl
@[simp] theorem State.clearResult_stored : s.clearResult.stored = s.stored := rfl
@[simp] theorem State.clearResult_computed : s.clearResult.computed = s.computed := rfl
@[simp] theorem State.clearResult_sp : s.clearResult.sp = 0#3 := rfl
@[simp] theorem State.clearResult_ncorr : s.clearResult.ncorr = 0#3 := rfl
@[simp] theorem State.clearResult_nunc : s.clearResult.nunc = 0#3 := rfl
@[simp] theorem State.clearResult_outcome : s.clearResult.outcome = outOk := rfl
@[simp] theorem State.clearResult_ph : s.clearResult.ph = s.ph := rfl
@[simp] theorem State.clearResult_log : s.clearResult.log = s.log := rfl
@[simp] theorem State.clearResult_schedule : s.clearResult.schedule = s.schedule := rfl
@[simp] theorem State.clearResult_hostReads : s.clearResult.hostReads = s.hostReads := rfl

@[simp] theorem State.advanceSp_data : s.advanceSp.data = s.data := rfl
@[simp] theorem State.advanceSp_stored : s.advanceSp.stored = s.stored := rfl
@[simp] theorem State.advanceSp_computed : s.advanceSp.computed = s.computed := rfl
@[simp] theorem State.advanceSp_sp : s.advanceSp.sp = s.sp + 1#3 := rfl
@[simp] theorem State.advanceSp_ncorr : s.advanceSp.ncorr = s.ncorr := rfl
@[simp] theorem State.advanceSp_nunc : s.advanceSp.nunc = s.nunc := rfl
@[simp] theorem State.advanceSp_outcome : s.advanceSp.outcome = s.outcome := rfl
@[simp] theorem State.advanceSp_ph : s.advanceSp.ph = s.ph := rfl
@[simp] theorem State.advanceSp_log : s.advanceSp.log = s.log := rfl
@[simp] theorem State.advanceSp_schedule : s.advanceSp.schedule = s.schedule := rfl
@[simp] theorem State.advanceSp_hostReads : s.advanceSp.hostReads = s.hostReads := rfl

@[simp] theorem State.countCorrected_data : s.countCorrected.data = s.data := rfl
@[simp] theorem State.countCorrected_stored : s.countCorrected.stored = s.stored := rfl
@[simp] theorem State.countCorrected_computed : s.countCorrected.computed = s.computed := rfl
@[simp] theorem State.countCorrected_sp : s.countCorrected.sp = s.sp := rfl
@[simp] theorem State.countCorrected_ncorr : s.countCorrected.ncorr = s.ncorr + 1#3 := rfl
@[simp] theorem State.countCorrected_nunc : s.countCorrected.nunc = s.nunc := rfl
@[simp] theorem State.countCorrected_outcome : s.countCorrected.outcome = s.outcome := rfl
@[simp] theorem State.countCorrected_ph : s.countCorrected.ph = s.ph := rfl
@[simp] theorem State.countCorrected_log : s.countCorrected.log = s.log := rfl
@[simp] theorem State.countCorrected_schedule : s.countCorrected.schedule = s.schedule := rfl
@[simp] theorem State.countCorrected_hostReads : s.countCorrected.hostReads = s.hostReads := rfl

@[simp] theorem State.countUncorrectable_data : s.countUncorrectable.data = s.data := rfl
@[simp] theorem State.countUncorrectable_stored : s.countUncorrectable.stored = s.stored := rfl
@[simp] theorem State.countUncorrectable_computed : s.countUncorrectable.computed = s.computed := rfl
@[simp] theorem State.countUncorrectable_sp : s.countUncorrectable.sp = s.sp := rfl
@[simp] theorem State.countUncorrectable_ncorr : s.countUncorrectable.ncorr = s.ncorr := rfl
@[simp] theorem State.countUncorrectable_nunc : s.countUncorrectable.nunc = s.nunc + 1#3 := rfl
@[simp] theorem State.countUncorrectable_outcome : s.countUncorrectable.outcome = s.outcome := rfl
@[simp] theorem State.countUncorrectable_ph : s.countUncorrectable.ph = s.ph := rfl
@[simp] theorem State.countUncorrectable_log : s.countUncorrectable.log = s.log := rfl
@[simp] theorem State.countUncorrectable_schedule : s.countUncorrectable.schedule = s.schedule := rfl
@[simp] theorem State.countUncorrectable_hostReads : s.countUncorrectable.hostReads = s.hostReads := rfl

@[simp] theorem State.setData_storedAt (m : Memory) (j : SubIndex) : (s.setData m).storedAt j = s.storedAt j := rfl
@[simp] theorem State.setData_computedAt (m : Memory) (j : SubIndex) : (s.setData m).computedAt j = s.computedAt j := rfl
@[simp] theorem State.setStored_byteAt (i : SubIndex) (w : Word) (a : Nat) : (s.setStored i w).byteAt a = s.byteAt a := rfl
@[simp] theorem State.setStored_page (i : SubIndex) (w : Word) : (s.setStored i w).page = s.page := rfl
@[simp] theorem State.setStored_computedAt (i : SubIndex) (w : Word) (j : SubIndex) : (s.setStored i w).computedAt j = s.computedAt j := rfl
@[simp] theorem State.setComputed_byteAt (i : SubIndex) (w : Word) (a : Nat) : (s.setComputed i w).byteAt a = s.byteAt a := rfl
@[simp] theorem State.setComputed_page (i : SubIndex) (w : Word) : (s.setComputed i w).page = s.page := rfl
@[simp] theorem State.setComputed_storedAt (i : SubIndex) (w : Word) (j : SubIndex) : (s.setComputed i w).storedAt j = s.storedAt j := rfl
@[simp] theorem State.setSp_byteAt (v : BitVec 3) (a : Nat) : (s.setSp v).byteAt a = s.byteAt a := rfl
@[simp] theorem State.setSp_page (v : BitVec 3) : (s.setSp v).page = s.page := rfl
@[simp] theorem State.setSp_storedAt (v : BitVec 3) (j : SubIndex) : (s.setSp v).storedAt j = s.storedAt j := rfl
@[simp] theorem State.setSp_computedAt (v : BitVec 3) (j : SubIndex) : (s.setSp v).computedAt j = s.computedAt j := rfl
@[simp] theorem State.setNcorr_byteAt (v : BitVec 3) (a : Nat) : (s.setNcorr v).byteAt a = s.byteAt a := rfl
@[simp] theorem State.setNcorr_page (v : BitVec 3) : (s.setNcorr v).page = s.page := rfl
@[simp] theorem State.setNcorr_storedAt (v : BitVec 3) (j : SubIndex) : (s.setNcorr v).storedAt j = s.storedAt j := rfl
@[simp] theorem State.setNcorr_computedAt (v : BitVec 3) (j : SubIndex) : (s.setNcorr v).computedAt j = s.computedAt j := rfl
@[simp] theorem State.setNunc_byteAt (v : BitVec 3) (a : Nat) : (s.setNunc v).byteAt a = s.byteAt a := rfl
@[simp] theorem State.setNunc_page (v : BitVec 3) : (s.setNunc v).page = s.page := rfl
@[simp] theorem State.setNunc_storedAt (v : BitVec 3) (j : SubIndex) : (s.setNunc v).storedAt j = s.storedAt j := rfl
@[simp] theorem State.setNunc_computedAt (v : BitVec 3) (j : SubIndex) : (s.setNunc v).computedAt j = s.computedAt j := rfl
@[simp] theorem State.setOutcome_byteAt (v : BitVec 2) (a : Nat) : (s.setOutcome v).byteAt a = s.byteAt a := rfl
@[simp] theorem State.setOutcome_page (v : BitVec 2) : (s.setOutcome v).page = s.page := rfl
@[simp] theorem State.setOutcome_storedAt (v : BitVec 2) (j : SubIndex) : (s.setOutcome v).storedAt j = s.storedAt j := rfl
@[simp] theorem State.setOutcome_computedAt (v : BitVec 2) (j : SubIndex) : (s.setOutcome v).computedAt j = s.computedAt j := rfl
@[simp] theorem State.setPh_byteAt (v : BitVec 2) (a : Nat) : (s.setPh v).byteAt a = s.byteAt a := rfl
@[simp] theorem State.setPh_page (v : BitVec 2) : (s.setPh v).page = s.page := rfl
@[simp] theorem State.setPh_storedAt (v : BitVec 2) (j : SubIndex) : (s.setPh v).storedAt j = s.storedAt j := rfl
@[simp] theorem State.setPh_computedAt (v : BitVec 2) (j : SubIndex) : (s.setPh v).computedAt j = s.computedAt j := rfl
@[simp] theorem State.emitLog_byteAt (r : List LogRecord) (a : Nat) : (s.emitLog r).byteAt a = s.byteAt a := rfl
@[simp] theorem State.emitLog_page (r : List LogRecord) : (s.emitLog r).page = s.page := rfl
@[simp] theorem State.emitLog_storedAt (r : List LogRecord) (j : SubIndex) : (s.emitLog r).storedAt j = s.storedAt j := rfl
@[simp] theorem State.emitLog_computedAt (r : List LogRecord) (j : SubIndex) : (s.emitLog r).computedAt j = s.computedAt j := rfl
@[simp] theorem State.setSchedule_byteAt (q : List Turn) (a : Nat) : (s.setSchedule q).byteAt a = s.byteAt a := rfl
@[simp] theorem State.setSchedule_page (q : List Turn) : (s.setSchedule q).page = s.page := rfl
@[simp] theorem State.setSchedule_storedAt (q : List Turn) (j : SubIndex) : (s.setSchedule q).storedAt j = s.storedAt j := rfl
@[simp] theorem State.setSchedule_computedAt (q : List Turn) (j : SubIndex) : (s.setSchedule q).computedAt j = s.computedAt j := rfl
@[simp] theorem State.recordRead_byteAt (r : Reading) (a : Nat) : (s.recordRead r).byteAt a = s.byteAt a := rfl
@[simp] theorem State.recordRead_page (r : Reading) : (s.recordRead r).page = s.page := rfl
@[simp] theorem State.recordRead_storedAt (r : Reading) (j : SubIndex) : (s.recordRead r).storedAt j = s.storedAt j := rfl
@[simp] theorem State.recordRead_computedAt (r : Reading) (j : SubIndex) : (s.recordRead r).computedAt j = s.computedAt j := rfl
@[simp] theorem State.clearResult_byteAt (a : Nat) : s.clearResult.byteAt a = s.byteAt a := rfl
@[simp] theorem State.clearResult_page : s.clearResult.page = s.page := rfl
@[simp] theorem State.clearResult_storedAt (j : SubIndex) : s.clearResult.storedAt j = s.storedAt j := rfl
@[simp] theorem State.clearResult_computedAt (j : SubIndex) : s.clearResult.computedAt j = s.computedAt j := rfl
@[simp] theorem State.advanceSp_byteAt (a : Nat) : s.advanceSp.byteAt a = s.byteAt a := rfl
@[simp] theorem State.advanceSp_page : s.advanceSp.page = s.page := rfl
@[simp] theorem State.advanceSp_storedAt (j : SubIndex) : s.advanceSp.storedAt j = s.storedAt j := rfl
@[simp] theorem State.advanceSp_computedAt (j : SubIndex) : s.advanceSp.computedAt j = s.computedAt j := rfl
@[simp] theorem State.countCorrected_byteAt (a : Nat) : s.countCorrected.byteAt a = s.byteAt a := rfl
@[simp] theorem State.countCorrected_page : s.countCorrected.page = s.page := rfl
@[simp] theorem State.countCorrected_storedAt (j : SubIndex) : s.countCorrected.storedAt j = s.storedAt j := rfl
@[simp] theorem State.countCorrected_computedAt (j : SubIndex) : s.countCorrected.computedAt j = s.computedAt j := rfl
@[simp] theorem State.countUncorrectable_byteAt (a : Nat) : s.countUncorrectable.byteAt a = s.byteAt a := rfl
@[simp] theorem State.countUncorrectable_page : s.countUncorrectable.page = s.page := rfl
@[simp] theorem State.countUncorrectable_storedAt (j : SubIndex) : s.countUncorrectable.storedAt j = s.storedAt j := rfl
@[simp] theorem State.countUncorrectable_computedAt (j : SubIndex) : s.countUncorrectable.computedAt j = s.computedAt j := rfl

@[simp] theorem State.setData_byteAt (m : Memory) (a : Nat) : (s.setData m).byteAt a = m.byteAt a := rfl

theorem State.setStored_storedAt (i j : SubIndex) (w : Word) :
    (s.setStored i w).storedAt j = if i = j then w else s.storedAt j := by
  simp [State.storedAt, Vector.getElem_set, Fin.ext_iff]

theorem State.setComputed_computedAt (i j : SubIndex) (w : Word) :
    (s.setComputed i w).computedAt j = if i = j then w else s.computedAt j := by
  simp [State.computedAt, Vector.getElem_set, Fin.ext_iff]

@[simp] theorem State.setSchedule_self : s.setSchedule s.schedule = s := rfl

/-- `page` and `byteAt` are two views of DATA. -/
@[simp] theorem State.page_getElem (a : Nat) (h : a < 2048) : s.page[a] = s.byteAt a := by
  simp [State.page]

end Sys2Proof.Machine
end

