-- ==== Sys2Proof/Laws/Memory.lean ====
section
/-! SUPPORT. The laws of memory: a read after a write, and that a write keeps the canonical form. -/

namespace Sys2Proof.Machine

theorem Memory.lookup_write (m : Memory) (a b : Nat) (v : Byte) :
    (m.write a v).lookup b = if b = a then some v else m.lookup b := by
  induction m with
  | nil => simp [Memory.write, Memory.lookup]
  | cons c rest ih =>
    obtain ⟨k, u⟩ := c
    unfold Memory.write
    split
    · simp [Memory.lookup]
    · split
      · subst_vars
        simp only [Memory.lookup]
        split <;> simp_all
      · rename_i hne
        have hne' : ¬k = a := fun h => hne h.symm
        simp only [Memory.lookup, ih]
        by_cases hk : b = k
        · subst hk
          simp [hne']
        · simp [hk]

/-- A read after a write: the byte written at that address, and every other byte as before. -/
theorem Memory.byteAt_write (m : Memory) (a b : Nat) (v : Byte) :
    (m.write a v).byteAt b = if b = a then v else m.byteAt b := by
  unfold Memory.byteAt
  rw [Memory.lookup_write]
  split <;> rfl

theorem Memory.mem_write {m : Memory} {a : Nat} {v : Byte} {c : Host.Cell} (h : c ∈ m.write a v) :
    c = (a, v) ∨ c ∈ m := by
  induction m with
  | nil => simpa [Memory.write] using h
  | cons d rest ih =>
    unfold Memory.write at h
    split at h
    · simpa using h
    · split at h
      · rcases List.mem_cons.1 h with h | h
        · exact .inl h
        · exact .inr (List.mem_cons_of_mem _ h)
      · rcases List.mem_cons.1 h with h | h
        · exact .inr (h ▸ List.mem_cons_self)
        · exact (ih h).imp id (List.mem_cons_of_mem _)

/-- A write inside DATA keeps the canonical form. -/
theorem Memory.wf_write {m : Memory} (hm : m.wf) {a : Nat} (ha : a < pageBytes) (v : Byte) : (m.write a v).wf := by
  refine ⟨?_, fun c hc => (Memory.mem_write hc).elim (fun h => h ▸ ha) (hm.2 c)⟩
  have hp := hm.1
  clear hm
  induction m with
  | nil => simp [Memory.write]
  | cons d rest ih =>
    have hd := List.pairwise_cons.1 hp
    unfold Memory.write
    split
    · rename_i hlt
      refine List.pairwise_cons.2 ⟨fun c hc => ?_, hp⟩
      rcases List.mem_cons.1 hc with rfl | hc
      · exact hlt
      · exact Nat.lt_trans hlt (hd.1 c hc)
    · split
      · rename_i heq
        exact List.pairwise_cons.2 ⟨fun c hc => heq ▸ hd.1 c hc, hd.2⟩
      · rename_i hge hne
        refine List.pairwise_cons.2 ⟨fun c hc => ?_, ih hd.2⟩
        rcases Memory.mem_write hc with rfl | hc
        · exact Nat.lt_of_le_of_ne (Nat.le_of_not_lt hge) (Ne.symm hne)
        · exact hd.1 c hc

/-- After power-on nothing is listed. -/
theorem reset_memory_wf : State.reset.data.wf := by decide

/-- `MemRead` answers the byte where the address exists, and faults elsewhere. -/
theorem memRead_eq (s : State) (a : Nat) :
    memRead s a = if a < 2048 then .ok (s.byteAt a) else .error (.dataAddressOutOfRange a) := rfl

/-- All that `MemWrite` can do: it writes one byte, of an address that exists. -/
theorem memWrite_ok {s t : State} {a : Nat} {v : Byte} (h : memWrite s a v = .ok t) :
    a < 2048 ∧ t = s.setData (s.data.write a v) := by
  unfold memWrite at h
  split at h
  · exact ⟨‹_›, by injection h with h; exact h.symm⟩
  · cases h

end Sys2Proof.Machine
end

