-- ==== Sys2Proof/Laws/Actions.lean ====
section
/-! SUPPORT. What the shared operations of the actions can do, each said once: the bit address, the flip, the action of a
class, STEP and FINISH. -/

namespace Sys2Proof.Machine

theorem byteIndex_lt (off : Half) : byteIndex off < 512 := by
  have h : (off >>> 3).toNat < 512 := by
    rw [BitVec.toNat_ushiftRight, Nat.shiftRight_eq_div_pow]
    have := off.isLt
    omega
  exact h

theorem bitInByte_lt (off : Half) : bitInByte off < 8 := by
  unfold bitInByte
  rw [BitVec.toNat_and]
  exact Nat.lt_of_le_of_lt Nat.and_le_right (by decide)

/-- The address of DATAFIX lies inside its sub-page (R30, R50). -/
theorem dataAddress_bounds (i : Nat) (off : Half) :
    512 * i ≤ dataAddress i off ∧ dataAddress i off ≤ 512 * i + 511 := by
  have := byteIndex_lt off
  unfold dataAddress
  omega

/-- The mask has one bit, the named one. -/
theorem flipMask_getLsbD (off : Half) (k : Nat) : (flipMask off).getLsbD k = decide (k = bitInByte off) := by
  have hb := bitInByte_lt off
  unfold flipMask
  generalize bitInByte off = b at hb
  rw [BitVec.getLsbD_shiftLeft]
  by_cases h : k = b
  · subst h
    simp [hb]
  · simp only [BitVec.getLsbD_one, h, decide_false]
    simp
    omega

/-- DATA after the flip of one bit of sub-page `i`. -/
def flippedData (i : Nat) (off : Half) (s : State) : Memory :=
  s.data.write (dataAddress i off) (s.byteAt (dataAddress i off) ^^^ flipMask off)

/-- All that the flip can do: one byte inside a sub-page, or the fault of an address that does not exist. -/
theorem flipDataBit_eq (i : Nat) (off : Half) (s : State) :
    flipDataBit i off s =
      if i < 4 then .ok (s.setData (flippedData i off s)) else .error (.dataAddressOutOfRange (dataAddress i off)) := by
  have hb := dataAddress_bounds i off
  unfold flipDataBit memRead memWrite flippedData
  by_cases h : i < 4
  · have : dataAddress i off < pageBytes := by simp only [pageBytes]; omega
    simp [h, this]
  · have : ¬dataAddress i off < pageBytes := by simp only [pageBytes]; omega
    simp [h, this]

/-- The byte at an address after the flip. -/
theorem flippedData_byteAt (i : Nat) (off : Half) (s : State) (a : Nat) :
    (flippedData i off s).byteAt a =
      if a = dataAddress i off then s.byteAt a ^^^ flipMask off else s.byteAt a := by
  unfold flippedData
  rw [Memory.byteAt_write]
  split
  · subst_vars; rfl
  · rfl

theorem flippedData_wf {s : State} (h : s.data.wf) {i : Nat} (hi : i < 4) (off : Half) : (flippedData i off s).wf := by
  have := dataAddress_bounds i off
  exact Memory.wf_write h (by simp only [pageBytes]; omega) _

/-- The state an action leaves on a sub-page that exists. -/
def afterAction (k : SubClass) (s : State) : State :=
  match k with
  | .skip => s
  | .clean => s
  | .eccfix _ => s.countCorrected
  | .datafix f => (s.setData (flippedData s.sp.toNat (datafixOffset config f) s)).countCorrected
  | .uncorr _ => s.countUncorrectable

theorem exec_toInstr (k : SubClass) (s : State) : exec k.toInstr s = performAction k s := by
  cases k <;> rfl

/-- An action on a sub-page that exists always completes. -/
theorem performAction_eq (k : SubClass) {s : State} (h : s.sp.toNat < 4) :
    performAction k s = .next (afterAction k s) := by
  cases k with
  | datafix f => simp [performAction, execDatafix, flipDataBit_eq, h, afterAction]
  | _ => rfl

/-- Where STEP is enabled, and on which sub-page. -/
theorem stepSubPage_eq_some {s : State} {i : SubIndex} :
    stepSubPage s = some i ↔ s.ph = phBusy ∧ s.sp.toNat = i.val := by
  unfold stepSubPage
  constructor
  · intro h
    split at h
    · split at h
      · injection h with h
        exact ⟨‹_›, by rw [← h]⟩
      · cases h
    · cases h
  · rintro ⟨h1, h2⟩
    have : s.sp.toNat < 4 := h2 ▸ i.isLt
    simp only [h1, if_true, this, dif_pos, Option.some.injEq]
    exact Fin.ext h2

theorem stepSubPage_eq_none {s : State} : stepSubPage s = none ↔ ¬(s.ph = phBusy ∧ s.sp.toNat < 4) := by
  unfold stepSubPage
  by_cases h1 : s.ph = phBusy <;> by_cases h2 : s.sp.toNat < 4 <;> simp [h1, h2]

theorem finishEnabled_iff {s : State} : finishEnabled s = true ↔ s.ph = phBusy ∧ s.sp = 4#3 := by
  simp [finishEnabled]

/-- The class of the pair of sub-page `i`. -/
abbrev State.classAt (s : State) (i : SubIndex) : SubClass := classOf config (s.storedAt i) (s.computedAt i)

/-- An enabled STEP always completes: the action of its sub-page's class, then SP + 1. -/
theorem execStep_eq {s : State} {i : SubIndex} (h : stepSubPage s = some i) :
    execStep s = .next (afterAction (s.classAt i) s).advanceSp := by
  have hlt : s.sp.toNat < 4 := (stepSubPage_eq_some.1 h).2 ▸ i.isLt
  unfold execStep
  rw [h]
  simp [performAction_eq _ hlt, onNext]

/-- The state FINISH leaves. -/
def afterFinish (s : State) : State :=
  ((s.setOutcome (aggregate s.ncorr s.nunc)).emitLog (logRecords s.ncorr s.nunc)).setPh phDone

theorem execFinish_eq {s : State} (h : finishEnabled s = true) : execFinish s = .next (afterFinish s) := by
  simp [execFinish, h, afterFinish]

variable (k : SubClass) (s : State)

@[simp] theorem afterAction_stored : (afterAction k s).stored = s.stored := by cases k <;> rfl
@[simp] theorem afterAction_computed : (afterAction k s).computed = s.computed := by cases k <;> rfl
@[simp] theorem afterAction_sp : (afterAction k s).sp = s.sp := by cases k <;> rfl
@[simp] theorem afterAction_outcome : (afterAction k s).outcome = s.outcome := by cases k <;> rfl
@[simp] theorem afterAction_ph : (afterAction k s).ph = s.ph := by cases k <;> rfl
@[simp] theorem afterAction_log : (afterAction k s).log = s.log := by cases k <;> rfl
@[simp] theorem afterAction_schedule : (afterAction k s).schedule = s.schedule := by cases k <;> rfl
@[simp] theorem afterAction_hostReads : (afterAction k s).hostReads = s.hostReads := by cases k <;> rfl

theorem afterAction_ncorr : (afterAction k s).ncorr =
    match k with
    | .eccfix _ => s.ncorr + 1#3
    | .datafix _ => s.ncorr + 1#3
    | _ => s.ncorr := by cases k <;> rfl

theorem afterAction_nunc : (afterAction k s).nunc =
    match k with
    | .uncorr _ => s.nunc + 1#3
    | _ => s.nunc := by cases k <;> rfl

theorem afterAction_byteAt (a : Nat) : (afterAction k s).byteAt a =
    match k with
    | .datafix f =>
      if a = dataAddress s.sp.toNat (datafixOffset config f) then
        s.byteAt a ^^^ flipMask (datafixOffset config f) else s.byteAt a
    | _ => s.byteAt a := by
  cases k with
  | datafix f => exact flippedData_byteAt _ _ s a
  | _ => rfl

@[simp] theorem afterFinish_data : (afterFinish s).data = s.data := rfl
@[simp] theorem afterFinish_stored : (afterFinish s).stored = s.stored := rfl
@[simp] theorem afterFinish_computed : (afterFinish s).computed = s.computed := rfl
@[simp] theorem afterFinish_sp : (afterFinish s).sp = s.sp := rfl
@[simp] theorem afterFinish_ncorr : (afterFinish s).ncorr = s.ncorr := rfl
@[simp] theorem afterFinish_nunc : (afterFinish s).nunc = s.nunc := rfl
@[simp] theorem afterFinish_outcome : (afterFinish s).outcome = aggregate s.ncorr s.nunc := rfl
@[simp] theorem afterFinish_ph : (afterFinish s).ph = phDone := rfl
@[simp] theorem afterFinish_log : (afterFinish s).log = s.log ++ logRecords s.ncorr s.nunc := rfl
@[simp] theorem afterFinish_schedule : (afterFinish s).schedule = s.schedule := rfl
@[simp] theorem afterFinish_hostReads : (afterFinish s).hostReads = s.hostReads := rfl

end Sys2Proof.Machine
end

