-- ==== Sys2Proof/Laws/Page.lean ====
section
/-! SUPPORT. The page as four slices: what replacing one does to the others, and what the whole-page function leaves in
each. -/

namespace Sys2Proof

/-- What a class adds to NCORR. -/
def SubClass.corrects : SubClass → Nat
  | .skip => 0
  | .clean => 0
  | .eccfix _ => 1
  | .datafix _ => 1
  | .uncorr _ => 0

/-- What a class adds to NUNC. -/
def SubClass.fails : SubClass → Nat
  | .skip => 0
  | .clean => 0
  | .eccfix _ => 0
  | .datafix _ => 0
  | .uncorr _ => 1

end Sys2Proof

namespace Sys2Proof.Machine

@[simp] theorem sliceOf_getElem (D : Page) (i : SubIndex) (j : Nat) (hj : j < 512) :
    (sliceOf D i)[j] = D[512 * i.val + j]'(by omega) := by
  simp [sliceOf]

theorem sliceOf_withSlice (D : Page) (i j : SubIndex) (d : SubPage) :
    sliceOf (withSlice D i d) j = if i = j then d else sliceOf D j := by
  apply Vector.ext
  intro k hk
  have hdiv : (512 * j.val + k) / 512 = j.val := by omega
  have hmod : (512 * j.val + k) % 512 = k := by omega
  by_cases h : i = j
  · subst h
    simp [withSlice, hdiv, hmod]
  · have h' : ¬j.val = i.val := fun e => h (Fin.ext e.symm)
    simp [withSlice, hdiv, h, h']

/-- A page is its four slices. -/
theorem page_ext {D E : Page} (h : ∀ i : SubIndex, sliceOf D i = sliceOf E i) : D = E := by
  apply Vector.ext
  intro a ha
  have hlt : a / 512 < 4 := by omega
  have he := congrArg (fun d : SubPage => d[a % 512]'(Nat.mod_lt _ (by decide))) (h ⟨a / 512, hlt⟩)
  have hsum : 512 * (a / 512) + a % 512 = a := Nat.div_add_mod a 512
  simpa [hsum] using he

variable (cfg : Config)

theorem subAction_dcorr (d : SubPage) (s c : Word) : (subAction cfg d s c).dcorr = (classOf cfg s c).corrects := by
  unfold subAction
  cases classOf cfg s c <;> rfl

theorem subAction_dunc (d : SubPage) (s c : Word) : (subAction cfg d s c).dunc = (classOf cfg s c).fails := by
  unfold subAction
  cases classOf cfg s c <;> rfl

variable (S C : Vector Word 4)

/-- The sub-page `j` after the loop has passed over `order`, each sub-page at most once. -/
theorem sliceOf_foldl (order : List SubIndex) (h : order.Nodup) (p : PageProgress) (j : SubIndex) :
    sliceOf (order.foldl (processSubPage cfg S C) p).data j =
      if j ∈ order then (subAction cfg (sliceOf p.data j) S[j.val] C[j.val]).data else sliceOf p.data j := by
  induction order generalizing p with
  | nil => simp
  | cons i rest ih =>
    obtain ⟨hi, hrest⟩ := List.nodup_cons.1 h
    rw [List.foldl_cons, ih hrest]
    simp only [processSubPage, sliceOf_withSlice]
    by_cases hij : i = j
    · subst hij
      simp [hi]
    · have hji : ¬j = i := fun e => hij e.symm
      simp [hij, hji]

theorem ncorr_foldl (order : List SubIndex) (p : PageProgress) :
    (order.foldl (processSubPage cfg S C) p).ncorr =
      p.ncorr + (order.map (fun i => (classOf cfg S[i.val] C[i.val]).corrects)).sum := by
  induction order generalizing p with
  | nil => simp
  | cons i rest ih =>
    rw [List.foldl_cons, ih]
    simp only [processSubPage, subAction_dcorr, List.map_cons, List.sum_cons]
    omega

theorem nunc_foldl (order : List SubIndex) (p : PageProgress) :
    (order.foldl (processSubPage cfg S C) p).nunc =
      p.nunc + (order.map (fun i => (classOf cfg S[i.val] C[i.val]).fails)).sum := by
  induction order generalizing p with
  | nil => simp
  | cons i rest ih =>
    rw [List.foldl_cons, ih]
    simp only [processSubPage, subAction_dunc, List.map_cons, List.sum_cons]
    omega

variable (D : Page)

/-- Each sub-page of the corrected page is `SubAction` of that sub-page. -/
theorem sliceOf_correctPage (j : SubIndex) :
    sliceOf (correctPage cfg D S C).data j = (subAction cfg (sliceOf D j) S[j.val] C[j.val]).data := by
  have hall : ∀ k : SubIndex, k ∈ ([0, 1, 2, 3] : List SubIndex) := by decide
  have h := sliceOf_foldl cfg S C [0, 1, 2, 3] (by decide) { data := D, ncorr := 0, nunc := 0 } j
  rw [if_pos (hall j)] at h
  exact h

theorem correctPage_ncorr :
    (correctPage cfg D S C).ncorr =
      (classOf cfg S[0] C[0]).corrects + (classOf cfg S[1] C[1]).corrects + (classOf cfg S[2] C[2]).corrects +
        (classOf cfg S[3] C[3]).corrects := by
  have h := ncorr_foldl cfg S C [0, 1, 2, 3] { data := D, ncorr := 0, nunc := 0 }
  simp only [List.map_cons, List.map_nil, List.sum_cons, List.sum_nil] at h
  refine h.trans ?_
  simp only [Fin.isValue, Fin.val_zero, Fin.val_one, Fin.val_two, Nat.zero_add, Nat.add_zero, ← Nat.add_assoc]
  rfl

theorem correctPage_nunc :
    (correctPage cfg D S C).nunc =
      (classOf cfg S[0] C[0]).fails + (classOf cfg S[1] C[1]).fails + (classOf cfg S[2] C[2]).fails +
        (classOf cfg S[3] C[3]).fails := by
  have h := nunc_foldl cfg S C [0, 1, 2, 3] { data := D, ncorr := 0, nunc := 0 }
  simp only [List.map_cons, List.map_nil, List.sum_cons, List.sum_nil] at h
  refine h.trans ?_
  simp only [Fin.isValue, Fin.val_zero, Fin.val_one, Fin.val_two, Nat.zero_add, Nat.add_zero, ← Nat.add_assoc]
  rfl

/-- A second flip of the same bit undoes the first. -/
theorem flipInSubPage_twice (d : SubPage) (off : Half) : flipInSubPage (flipInSubPage d off) off = d := by
  apply Vector.ext
  intro j hj
  simp only [flipInSubPage, Vector.getElem_ofFn]
  split
  · rw [BitVec.xor_assoc, BitVec.xor_self, BitVec.xor_zero]
  · rfl

/-- `SubAction` twice on the same pair restores the sub-page. -/
theorem subAction_twice (d : SubPage) (s c : Word) : (subAction cfg (subAction cfg d s c).data s c).data = d := by
  unfold subAction
  cases classOf cfg s c with
  | datafix f => exact flipInSubPage_twice d _
  | _ => rfl

end Sys2Proof.Machine
end

