-- ==== Sys2Proof/Laws/Generator.lean ====
section
/-! SUPPORT. The reference generator of 95_test_vectors.md section 4 has the property `GenLinear`, so the statements about
every linear generator speak of something; and it never returns the erased marker. -/

namespace Sys2Proof.Machine

theorem byteIndex_eq (a : Half) : byteIndex a = a.toNat / 8 := by
  simp [byteIndex, Nat.shiftRight_eq_div_pow]

theorem bitInByte_eq (a : Half) : bitInByte a = a.toNat % 8 := by
  unfold bitInByte
  rw [BitVec.toNat_and]
  exact Nat.and_two_pow_sub_one_eq_mod _ 3

/-- The flip inverts the bit at its address and no other. -/
theorem bitAt_flipAt (d : SubPage) (a : Half) (b : Fin 4096) :
    bitAt (flipAt d a) b = (bitAt d b ^^ decide (b.val = a.toNat)) := by
  have hb := byteIndex_eq a
  have hk := bitInByte_eq a
  simp only [bitAt, flipAt, flipInSubPage, Vector.getElem_ofFn]
  by_cases h : b.val / 8 = byteIndex a
  · rw [if_pos h, BitVec.getLsbD_xor, flipMask_getLsbD]
    congr 1
    exact decide_eq_decide.2 (by omega)
  · rw [if_neg h]
    have hne : ¬b.val = a.toNat := fun e => h (by rw [e, hb])
    simp [hne]

theorem foldl_flip (d : SubPage) (a : Half) (value : Half → Half) (l : List (Fin 4096)) (h : l.Nodup) (acc : Half) :
    l.foldl (fun acc b => if bitAt (flipAt d a) b then acc ^^^ value (BitVec.ofNat 12 b.val) else acc) acc =
      (l.foldl (fun acc b => if bitAt d b then acc ^^^ value (BitVec.ofNat 12 b.val) else acc) acc) ^^^
        (if (⟨a.toNat, a.isLt⟩ : Fin 4096) ∈ l then value a else 0#12) := by
  have hacc : ∀ (l : List (Fin 4096)) (x y : Half),
      l.foldl (fun acc b => if bitAt d b then acc ^^^ value (BitVec.ofNat 12 b.val) else acc) (x ^^^ y) =
        l.foldl (fun acc b => if bitAt d b then acc ^^^ value (BitVec.ofNat 12 b.val) else acc) x ^^^ y := by
    intro l
    induction l with
    | nil => intros; rfl
    | cons b l ih =>
      intro x y
      simp only [List.foldl_cons]
      split
      · rw [BitVec.xor_assoc, BitVec.xor_comm y, ← BitVec.xor_assoc, ih]
      · rw [ih]
  induction l generalizing acc with
  | nil => simp
  | cons b l ih =>
    obtain ⟨hb, hl⟩ := List.nodup_cons.1 h
    simp only [List.foldl_cons]
    rw [ih hl, bitAt_flipAt]
    by_cases hba : b.val = a.toNat
    · have hbe : b = ⟨a.toNat, a.isLt⟩ := Fin.ext hba
      have hnot : ¬(⟨a.toNat, a.isLt⟩ : Fin 4096) ∈ l := hbe ▸ hb
      have hval : BitVec.ofNat 12 b.val = a := by
        rw [hba]
        simp
      simp only [decide_true, Bool.xor_true, hnot, if_false, BitVec.xor_zero, hbe, List.mem_cons, true_or, if_true]
      rw [show BitVec.ofNat 12 a.toNat = a by simp, ← hacc]
      congr 1
      cases bitAt d ⟨a.toNat, a.isLt⟩ <;> simp
    · have hne : ¬(⟨a.toNat, a.isLt⟩ : Fin 4096) = b := fun e => hba (by rw [← e])
      simp only [hba, decide_false, Bool.xor_false, List.mem_cons, hne, false_or]

theorem xorOverSetBits_flipAt (d : SubPage) (a : Half) (value : Half → Half) :
    xorOverSetBits (flipAt d a) value = xorOverSetBits d value ^^^ value a := by
  have h := foldl_flip d a value (List.finRange 4096) (List.nodup_finRange 4096) 0#12
  rw [if_pos (List.mem_finRange _)] at h
  exact h

theorem wordOfHalves_xor (e o e' o' : Half) :
    wordOfHalves (e ^^^ e') (o ^^^ o') = wordOfHalves e o ^^^ wordOfHalves e' o' := by
  apply BitVec.eq_of_getLsbD_eq
  intro i hi
  simp only [wordOfHalves, Syn.word, BitVec.getLsbD_xor, BitVec.getLsbD_append, BitVec.getLsbD_extractLsb']
  interval_cases i <;> simp

theorem synOf_eq_wordOfHalves (a : Half) : synOf a = wordOfHalves (~~~a) a := by
  apply BitVec.eq_of_getLsbD_eq
  intro i hi
  simp only [synOf, wordOfHalves, Syn.word, BitVec.getLsbD_append, BitVec.getLsbD_extractLsb', BitVec.getLsbD_not]
  interval_cases i <;> simp

theorem genLinear_refGen : GenLinear refGen := by
  intro d a
  unfold refGen
  rw [xorOverSetBits_flipAt, xorOverSetBits_flipAt, wordOfHalves_xor, synOf_eq_wordOfHalves]

theorem refGen_ne_erased (d : SubPage) : refGen d ≠ erased := by
  intro h
  have hb := congrArg (fun w : Word => w.getLsbD 4) h
  simp only [refGen, wordOfHalves, Syn.word, BitVec.getLsbD_append] at hb
  simp [erased] at hb

end Sys2Proof.Machine
end

