-- ==== Sys2Proof/Laws/PerInstr.lean ====
section
/-! SUPPORT. Statements made of every instruction, one lemma per constructor. The family CodeLength: how many bytes the
encoding has: one for a command code, eight for a pair of ECC words, none for a transition of the block. -/

namespace Sys2Proof.Laws.CodeLength

/-- A command is one byte, an action a pair of 4-byte words, a transition of the block has no code. -/
def Statement (i : Instr) : Prop :=
  (encode i).length = if (cmdOf i).isSome then 1 else if (pairOf i).isSome then 2 * eccBytes else 0

theorem nop : Statement .nop := rfl
theorem correct : Statement .correct := rfl
theorem reset : Statement .reset := rfl
theorem cmdReserved : Statement .cmdReserved := rfl
theorem step : Statement .step := rfl
theorem finish : Statement .finish := rfl
theorem skip : Statement .skip := rfl
theorem clean : Statement .clean := rfl
theorem eccfix (bit : Fin 32) : Statement (.eccfix bit) := rfl
theorem datafix (syn : Syn) : Statement (.datafix syn) := rfl
theorem uncorr (syn : Syn) : Statement (.uncorr syn) := rfl

end Sys2Proof.Laws.CodeLength
end

