-- ==== Sys2Proof/Laws/Step.lean ====
section
/-! SUPPORT. What a step can do, said once: the turn it takes, and the state each turn leaves. -/

namespace Sys2Proof.Machine

/-- A step is the next turn, on the state whose schedule is what is left. -/
theorem step_eq (s : State) : step s = takeTurn s.nextTurn (s.setSchedule s.restOfSchedule) := by
  unfold step transition State.nextTurn State.restOfSchedule
  cases hs : s.schedule with
  | nil =>
    have : s.setSchedule [] = s := by
      rw [← hs]; rfl
    simp [takeTurn, this]
  | cons t rest => rfl

/-- The block's turn, where STEP is enabled. -/
theorem blockTurn_step {s : State} {i : SubIndex} (h : stepSubPage s = some i) :
    blockTurn s = .next (afterAction (s.classAt i) s).advanceSp := by
  simp [blockTurn, enabledTransition, h, exec, execStep_eq h]

/-- The block's turn, where FINISH is enabled. -/
theorem blockTurn_finish {s : State} (h : s.ph = phBusy) (h4 : s.sp = 4#3) : blockTurn s = .next (afterFinish s) := by
  have hf : finishEnabled s = true := finishEnabled_iff.2 ⟨h, h4⟩
  have hn : stepSubPage s = none := stepSubPage_eq_none.2 (by simp [h4])
  simp [blockTurn, enabledTransition, hn, hf, exec, execFinish_eq hf]

/-- The block's turn, where no transition is enabled. -/
theorem blockTurn_none {s : State} (h : enabledTransition s = none) : blockTurn s = .next s := by
  simp [blockTurn, h]

theorem enabledTransition_eq_none {s : State} :
    enabledTransition s = none ↔ ¬(s.ph = phBusy ∧ s.sp.toNat ≤ 4) := by
  unfold enabledTransition
  by_cases h1 : s.ph = phBusy
  · by_cases h2 : s.sp.toNat < 4
    · obtain ⟨i, hi⟩ : ∃ i, stepSubPage s = some i := ⟨⟨_, h2⟩, stepSubPage_eq_some.2 ⟨h1, rfl⟩⟩
      simp [hi, h1, Nat.le_of_lt h2]
    · have hn : stepSubPage s = none := stepSubPage_eq_none.2 (by simp [h2])
      by_cases h4 : s.sp = 4#3
      · simp [hn, finishEnabled_iff.2 ⟨h1, h4⟩, h1, h4]
      · have : ¬s.sp.toNat ≤ 4 := by
          intro hle
          exact h4 (BitVec.eq_of_toNat_eq (by simp; omega))
        have hf : finishEnabled s = false := by simp [finishEnabled, h4]
        simp [hn, hf, this]
  · have hn : stepSubPage s = none := stepSubPage_eq_none.2 (by simp [h1])
    have hf : finishEnabled s = false := by simp [finishEnabled, h1]
    simp [hn, hf, h1]

/-- The three cases of the block's turn. -/
theorem blockTurn_cases (s : State) :
    (∃ i, stepSubPage s = some i ∧ blockTurn s = .next (afterAction (s.classAt i) s).advanceSp) ∨
    (s.ph = phBusy ∧ s.sp = 4#3 ∧ blockTurn s = .next (afterFinish s)) ∨
    (enabledTransition s = none ∧ blockTurn s = .next s) := by
  cases h : stepSubPage s with
  | some i => exact .inl ⟨i, rfl, blockTurn_step h⟩
  | none =>
    by_cases hf : finishEnabled s = true
    · obtain ⟨h1, h4⟩ := finishEnabled_iff.1 hf
      exact .inr (.inl ⟨h1, h4, blockTurn_finish h1 h4⟩)
    · have hn : enabledTransition s = none := by simp [enabledTransition, h, hf]
      exact .inr (.inr ⟨hn, blockTurn_none hn⟩)

/-- The command a code names. -/
theorem decodeCmd_cases (code : BitVec 2) :
    (code = cmdNop ∧ decodeCmd code = .nop) ∨ (code = cmdCorrect ∧ decodeCmd code = .correct) ∨
    (code = cmdReset ∧ decodeCmd code = .reset) ∨ (code = 3#2 ∧ decodeCmd code = .cmdReserved) := by
  revert code
  decide

/-- A host access to the buffers that goes on does so outside BUSY. -/
theorem whenBuffersOpen_next {s t : State} {o : Host.Outcome State Fault Refusal}
    (h : whenBuffersOpen s o = .next t) : (s.ph = phIdle ∨ s.ph = phDone) ∧ o = .next t := by
  unfold whenBuffersOpen at h
  split at h
  · exact ⟨‹_›, h⟩
  · split at h <;> cases h

/-- A host read of SP that goes on does so in DONE, and only records it. -/
theorem hostReadPointer_next {s t : State} (h : hostReadPointer s = .next t) :
    s.ph = phDone ∧ t = s.recordRead (.pointer s.sp) := by
  unfold hostReadPointer at h
  split at h
  · cases h
    exact ⟨‹_›, rfl⟩
  · cases h

/-- Everything a turn can do when it answers a next state. -/
inductive TurnEffect (s : State) : Turn → State → Prop where
  | nop : TurnEffect s (.cmd cmdNop) s
  | accepted (h : s.ph = phIdle ∨ s.ph = phDone) : TurnEffect s (.cmd cmdCorrect) (s.clearResult.setPh phBusy)
  | dropped (h : s.ph = phBusy) : TurnEffect s (.cmd cmdCorrect) s
  | reset : TurnEffect s (.cmd cmdReset) (s.clearResult.setPh phIdle)
  | dataWrite (a : DataAddr) (v : Byte) (h : s.ph = phIdle ∨ s.ph = phDone) :
      TurnEffect s (.ldd a v) (s.setData (s.data.write a.toNat v))
  | storedWrite (i : SubIndex) (w : Word) (h : s.ph = phIdle ∨ s.ph = phDone) : TurnEffect s (.lds i w) (s.setStored i w)
  | computedWrite (i : SubIndex) (w : Word) (h : s.ph = phIdle ∨ s.ph = phDone) :
      TurnEffect s (.ldc i w) (s.setComputed i w)
  | read (u : Turn) (r : Reading) (hb : u ≠ .block) (hc : ∀ code, u ≠ .cmd code) : TurnEffect s u (s.recordRead r)
  | stepped (i : SubIndex) (h : stepSubPage s = some i) : TurnEffect s .block (afterAction (s.classAt i) s).advanceSp
  | finished (h : s.ph = phBusy) (h4 : s.sp = 4#3) : TurnEffect s .block (afterFinish s)
  | idle (h : enabledTransition s = none) : TurnEffect s .block s

/-- The inversion of a turn: a next state is one of the effects. -/
theorem takeTurn_next {u : Turn} {s t : State} (h : takeTurn u s = .next t) : TurnEffect s u t := by
  cases u with
  | cmd code =>
    rcases decodeCmd_cases code with ⟨rfl, hd⟩ | ⟨rfl, hd⟩ | ⟨rfl, hd⟩ | ⟨rfl, hd⟩
    · simp only [takeTurn, hd, exec, execNop] at h
      cases h
      exact .nop
    · simp only [takeTurn, hd, exec, execCorrect] at h
      split at h
      · cases h
        exact .accepted ‹_›
      · split at h
        · cases h
          exact .dropped ‹_›
        · cases h
    · simp only [takeTurn, hd, exec, execReset] at h
      cases h
      exact .reset
    · simp only [takeTurn, hd, exec, execCmdReserved] at h
      cases h
  | ldd a v =>
    obtain ⟨hp, ho⟩ := whenBuffersOpen_next h
    cases hw : memWrite s a.toNat v with
    | error e => rw [hw] at ho; cases ho
    | ok t' =>
      rw [hw] at ho
      cases ho
      exact (memWrite_ok hw).2 ▸ .dataWrite a v hp
  | lds i w =>
    obtain ⟨hp, ho⟩ := whenBuffersOpen_next h
    cases ho
    exact .storedWrite i w hp
  | ldc i w =>
    obtain ⟨hp, ho⟩ := whenBuffersOpen_next h
    cases ho
    exact .computedWrite i w hp
  | rdd a =>
    obtain ⟨-, ho⟩ := whenBuffersOpen_next h
    cases hr : memRead s a.toNat with
    | error e => rw [hr] at ho; cases ho
    | ok v =>
      rw [hr] at ho
      cases ho
      exact .read _ _ (by simp) (by simp)
  | rds i =>
    obtain ⟨-, ho⟩ := whenBuffersOpen_next h
    cases ho
    exact .read _ _ (by simp) (by simp)
  | rdc i =>
    obtain ⟨-, ho⟩ := whenBuffersOpen_next h
    cases ho
    exact .read _ _ (by simp) (by simp)
  | rdr =>
    cases h
    exact .read _ _ (by simp) (by simp)
  | rdsp =>
    cases (hostReadPointer_next h).2
    exact .read _ _ (by simp) (by simp)
  | block =>
    have h : blockTurn s = .next t := h
    rcases blockTurn_cases s with ⟨i, hi, hb⟩ | ⟨h1, h4, hb⟩ | ⟨hn, hb⟩ <;> rw [hb] at h <;> cases h
    · exact .stepped i hi
    · exact .finished h1 h4
    · exact .idle hn

/-- The inversion of a step. -/
theorem step_next {s t : State} (h : step s = .next t) :
    TurnEffect (s.setSchedule s.restOfSchedule) s.nextTurn t :=
  takeTurn_next (step_eq s ▸ h)

/-- A run, one step on. -/
theorem run_succ_next (n : Nat) {s t : State} (h : step s = .next t) :
    Host.Core.run core (n + 1) s = Host.Core.run core n t := by
  have h' : core.step s = .next t := h
  simp only [Host.Core.run, h']

theorem run_zero (s : State) : Host.Core.run core 0 s = .next s := rfl

end Sys2Proof.Machine
end

