-- ==== Sys2Proof/Machine/Notation.lean ====
section
/-! DEFINITION. The pseudo-instructions of R65, each as the turns it expands to (R66: they have no meaning of their own),
and the host's load of the eight ECC words from its spare staging buffer (R36; log entry 22). -/

namespace Sys2Proof.Machine

/-- `FILL lo, hi, f` (R65): `LDD a, f(a)` for every a from lo to hi inclusive. -/
def fillTurns (lo hi : DataAddr) (f : Nat → Byte) : List Turn :=
  (List.range' lo.toNat (hi.toNat + 1 - lo.toNat)).map (fun a => .ldd (BitVec.ofNat 11 a) (f a))

/-- `LDP i, s, c` (R65): `LDS i, s` then `LDC i, c`. -/
def ldpTurns (i : SubIndex) (s c : Word) : List Turn := [.lds i s, .ldc i c]

/-- `RUN` (R65): CORRECT, then STEP four times, then FINISH. -/
def runTurns : List Turn := .cmd cmdCorrect :: List.replicate 5 .block

/-- The host's spare staging buffer, at its least size (R33, R36). -/
abbrev SpareBuffer := Vector Byte 80

/-- The ECC word at an offset of the spare buffer (R31, R36). -/
def spareWord (order : ByteOrder) (b : SpareBuffer) (i : SubIndex) (base : Nat) (h : base ≤ 64) : Word :=
  eccWord order (b[base + 4 * i.val]'(by omega)) (b[base + 4 * i.val + 1]'(by omega)) (b[base + 4 * i.val + 2]'(by omega))
    (b[base + 4 * i.val + 3]'(by omega))

/-- The eight ECC words loaded from the spare buffer: stored from 0x30, computed from 0x40, sub-page 0 first (R36). -/
def spareTurns (b : SpareBuffer) : List Turn :=
  ([0, 1, 2, 3] : List SubIndex).flatMap (fun i =>
    ldpTurns i (spareWord config.eccByteOrder b i 0x30 (by decide)) (spareWord config.eccByteOrder b i 0x40 (by decide)))

end Sys2Proof.Machine
end

