-- ==== Sys2Proof/Tests/Slice0.lean ====
section
/-! SUPPORT. The model's own tests. The expected values come from the vectors V<n> of spec/95_test_vectors.md, or from the
rule named. The witnesses show, for every statement with hypotheses, a state and operands that meet them together. -/

namespace Sys2Proof.Tests

open Sys2Proof.Machine

/-- A state with the control registers given in the order of 95_test_vectors.md, the same pair in every sub-page, and the
listed bytes of DATA. -/
def stateOf (ph : BitVec 2) (sp ncorr nunc : BitVec 3) (outcome : BitVec 2) (s c : Word) (data : Memory) : State :=
  { data := data, stored := #v[s, s, s, s], computed := #v[c, c, c, c], sp := sp, ncorr := ncorr, nunc := nunc,
    outcome := outcome, ph := ph, log := [], schedule := [], hostReads := [] }

/-- A state with a schedule, the pair all zero. -/
def scheduled (ph : BitVec 2) (sp : BitVec 3) (q : List Turn) : State :=
  (stateOf ph sp 0#3 0#3 0#2 0#32 0#32 []).setSchedule q

/-- The registers of 95_test_vectors.md: (PH, SP, NCORR, NUNC, OUTCOME). -/
def registers (s : State) : BitVec 2 × BitVec 3 × BitVec 3 × BitVec 3 × BitVec 2 :=
  (s.ph, s.sp, s.ncorr, s.nunc, s.outcome)

/-- A property of the next state; false of a stop. -/
def ends (o : Host.Outcome State Fault Refusal) (p : State → Bool) : Bool :=
  match o with
  | .next t => p t
  | .fault _ => false
  | .refused _ => false

/-! ### Decoding: words written out from the spec's encodings -/

/-- Format CMD (R62): the four codes. -/
theorem test_decode_commands :
    decode [0b00000000#8] = .ok .nop ∧ decode [0b00000001#8] = .ok .correct ∧ decode [0b00000010#8] = .ok .reset ∧
    decode [0b00000011#8] = .ok .cmdReserved := ⟨rfl, rfl, rfl, rfl⟩

/-- A byte that is no 2-bit code, no byte at all, and a string of no known length are refused by name. -/
theorem test_decode_refuses :
    decode [0b00000100#8] = .error (.notACommandCode 4#8) ∧ decode [] = .error .noCode ∧
    decode [0#8, 0#8, 0#8, 0#8] = .error (.badLength 4) := ⟨rfl, rfl, rfl⟩

/-- V36: FF FF FF FF; 00 00 00 00 is SKIP. -/
theorem test_decode_skip :
    decode [0xFF#8, 0xFF#8, 0xFF#8, 0xFF#8, 0x00#8, 0x00#8, 0x00#8, 0x00#8] = .ok .skip := by decide

/-- V39: 5A 0F 3C 01 twice is CLEAN. -/
theorem test_decode_clean :
    decode [0x5A#8, 0x0F#8, 0x3C#8, 0x01#8, 0x5A#8, 0x0F#8, 0x3C#8, 0x01#8] = .ok .clean := by decide

/-- V41: 12 34 56 78; 12 34 D6 78 has syndrome 0x00008000, ECCFIX of bit 15. -/
theorem test_decode_eccfix :
    decode [0x12#8, 0x34#8, 0x56#8, 0x78#8, 0x12#8, 0x34#8, 0xD6#8, 0x78#8] = .ok (.eccfix 15) := by decide

/-- V58, V66: the syndrome bytes DC 0E 23 01, bit by bit EL = 11011100, U1 = 0000, EH = 1110, OL = 00100011, U0 = 0000,
OH = 0001, are DATAFIX of address 0x123. -/
theorem test_decode_datafix :
    decode [0#8, 0#8, 0#8, 0#8, 0b11011100#8, 0b00001110#8, 0b00100011#8, 0b00000001#8] =
      .ok (.datafix { el := 0b11011100#8, u1 := 0b0000#4, eh := 0b1110#4,
                      ol := 0b00100011#8, u0 := 0b0000#4, oh := 0b0001#4 }) := by decide

/-- V66, the other byte order: 01 23 0E DC is UNCORR. -/
theorem test_decode_uncorr :
    decode [0#8, 0#8, 0#8, 0#8, 0x01#8, 0x23#8, 0x0E#8, 0xDC#8] =
      .ok (.uncorr { el := 0x01#8, u1 := 2#4, eh := 3#4, ol := 0x0E#8, u0 := 0xD#4, oh := 0xC#4 }) := by decide

/-- Where the order of the tests decides (R58): V35, V38 SKIP; V47, V48 not SKIP. -/
theorem test_decode_order :
    decodePair 0xFFFFFFFF#32 0xFFFFFFFF#32 = .skip ∧ decodePair 0xFFFFFFFF#32 0x00F0FFFF#32 = .skip ∧
    decodePair 0#32 0xFFFFFFFF#32 = .uncorr (Syn.ofWord 0xFFFFFFFF#32) ∧
    decodePair 0xFFFFFFFE#32 0#32 = .uncorr (Syn.ofWord 0xFFFFFFFE#32) := by decide

/-- One-hot syndromes at the ends and in the unused fields: V40, V42, V43, V44. -/
theorem test_decode_single_bits :
    decodePair 0x12345678#32 0x12345679#32 = .eccfix 0 ∧ decodePair 0#32 0x80000000#32 = .eccfix 31 ∧
    decodePair 0#32 0x00100000#32 = .eccfix 20 ∧ decodePair 0#32 0x00000010#32 = .eccfix 4 := by decide

/-- `Split` (R47): V3, V6, V8. -/
theorem test_split :
    config.split 0x12345678#32 = (0x412#12, 0x856#12) ∧ config.split 0xDC0E2301#32 = (0xEDC#12, 0x123#12) ∧
    config.split 0xAB0C00F0#32 = (0xCAB#12, 0x000#12) := by decide

/-- Where single bits land (R46): V9, V12, V13, V16, V17. -/
theorem test_split_bits :
    config.split 0x01000000#32 = (0x001#12, 0#12) ∧ config.split 0x00080000#32 = (0x800#12, 0#12) ∧
    config.split 0x00000100#32 = (0#12, 0x001#12) ∧ config.split 0x00000008#32 = (0#12, 0x800#12) ∧
    config.split 0x00100000#32 = (0#12, 0#12) := by decide

/-- The table's own words: the CMD rows, a SYN word as the syndrome, and the rows without a code. -/
theorem test_decode_table_words :
    decodeTableWord 8 1 = some .correct ∧ decodeTableWord 32 0 = some .clean ∧
    decodeTableWord 32 0xFFFFFFFF = some .skip ∧ decodeTableWord 32 0x00008000 = some (.eccfix 15) ∧
    decodeTableWord 32 0xDC0E2301 = some (.datafix (Syn.ofWord 0xDC0E2301#32)) ∧
    decodeTableWord 32 0x00000003 = some (.uncorr (Syn.ofWord 3#32)) ∧ decodeTableWord 0 0 = none := by decide

/-! ### Well-formedness: an ill-formed term for each check -/

/-- A syndrome of no bit is neither DATAFIX nor UNCORR (R77). -/
theorem test_wf_refuses_zero :
    Instr.wf (.datafix (Syn.ofWord 0#32)) = false ∧ Instr.wf (.uncorr (Syn.ofWord 0#32)) = false := by decide

/-- A syndrome of one bit is neither (R78). -/
theorem test_wf_refuses_single_bit :
    Instr.wf (.datafix (Syn.ofWord 0x100#32)) = false ∧ Instr.wf (.uncorr (Syn.ofWord 0x100#32)) = false := by decide

/-- DATAFIX needs a valid signature (V65), UNCORR an invalid one (V61). -/
theorem test_wf_refuses_wrong_signature :
    Instr.wf (.datafix (Syn.ofWord 0xFF0E0000#32)) = false ∧ Instr.wf (.uncorr (Syn.ofWord 0xFF0F0000#32)) = false ∧
    Instr.wf (.datafix (Syn.ofWord 0xFF0F0000#32)) = true ∧ Instr.wf (.uncorr (Syn.ofWord 0xFF0E0000#32)) = true := by
  decide

/-! ### Meanings -/

/-- NOP changes nothing (R62). -/
theorem test_nop : exec .nop (stateOf 1#2 2#3 1#3 0#3 0#2 0#32 0#32 []) = .next (stateOf 1#2 2#3 1#3 0#3 0#2 0#32 0#32 []) :=
  rfl

/-- V95: CORRECT in DONE. -/
theorem test_correct_done :
    exec .correct (stateOf 2#2 4#3 2#3 1#3 3#2 5#32 6#32 [(3, 7#8)]) =
      .next (stateOf 1#2 0#3 0#3 0#3 0#2 5#32 6#32 [(3, 7#8)]) := rfl

/-- V96: CORRECT in BUSY is dropped. -/
theorem test_correct_busy :
    exec .correct (stateOf 1#2 2#3 1#3 0#3 0#2 5#32 6#32 []) = .next (stateOf 1#2 2#3 1#3 0#3 0#2 5#32 6#32 []) := rfl

/-- V97: RESET in BUSY; V98 in DONE. -/
theorem test_reset :
    exec .reset (stateOf 1#2 3#3 2#3 0#3 0#2 5#32 6#32 [(3, 7#8)]) =
      .next (stateOf 0#2 0#3 0#3 0#3 0#2 5#32 6#32 [(3, 7#8)]) ∧
    exec .reset (stateOf 2#2 4#3 1#3 0#3 1#2 5#32 6#32 []) = .next (stateOf 0#2 0#3 0#3 0#3 0#2 5#32 6#32 []) := ⟨rfl, rfl⟩

/-- V102: CMD code `11` is refused. -/
theorem test_reserved_code (s : State) : takeTurn (.cmd 3#2) s = .refused .reservedCommand := rfl

/-- V67: SKIP as a STEP. -/
theorem test_step_skip :
    ends (exec .step (stateOf 1#2 3#3 1#3 0#3 0#2 0xFFFFFFFF#32 0#32 []))
      (fun t => decide (registers t = (1#2, 4#3, 1#3, 0#3, 0#2) ∧ t.data = [])) = true := by decide

/-- V68: CLEAN as a STEP. -/
theorem test_step_clean :
    ends (exec .step (stateOf 1#2 0#3 0#3 0#3 0#2 0x5A0F3C01#32 0x5A0F3C01#32 []))
      (fun t => decide (registers t = (1#2, 1#3, 0#3, 0#3, 0#2) ∧ t.data = [])) = true := by decide

/-- V70: ECCFIX as a STEP; NCORR reaches 4. -/
theorem test_step_eccfix :
    ends (exec .step (stateOf 1#2 3#3 3#3 0#3 0#2 0#32 0x00100000#32 []))
      (fun t => decide (registers t = (1#2, 4#3, 4#3, 0#3, 0#2) ∧ t.data = [])) = true := by decide

/-- V71: DATAFIX 0x123 on sub-page 2: DATA[1060] from 0x0C to 0x04. -/
theorem test_step_datafix :
    ends (exec .step (stateOf 1#2 2#3 1#3 0#3 0#2 0#32 0xDC0E2301#32 [(36, 0#8), (1060, 0x0C#8)]))
      (fun t => decide (registers t = (1#2, 3#3, 2#3, 0#3, 0#2) ∧ t.data = [(36, 0#8), (1060, 0x04#8)])) = true := by
  decide

/-- V73: DATAFIX 0xFFF on sub-page 3: the last bit of the page. -/
theorem test_step_datafix_last_bit :
    ends (exec .step (stateOf 1#2 3#3 0#3 0#3 0#2 0#32 0x0000FF0F#32 [(2047, 0x7F#8)]))
      (fun t => decide (registers t = (1#2, 4#3, 1#3, 0#3, 0#2) ∧ t.data = [(2047, 0xFF#8)])) = true := by decide

/-- V75: UNCORR as a STEP. -/
theorem test_step_uncorr :
    ends (exec .step (stateOf 1#2 1#3 1#3 0#3 0#2 0#32 0x00000003#32 []))
      (fun t => decide (registers t = (1#2, 2#3, 1#3, 1#3, 0#2) ∧ t.data = [])) = true := by decide

/-- V77: with SP = 4 FINISH is enabled, STEP is not; V78: in IDLE and DONE neither is. -/
theorem test_enabled :
    enabledTransition (stateOf 1#2 4#3 2#3 1#3 0#2 0#32 0#32 []) = some .finish ∧
    enabledTransition (stateOf 0#2 0#3 0#3 0#3 0#2 0#32 0#32 []) = none ∧
    enabledTransition (stateOf 2#2 4#3 1#3 0#3 1#2 0#32 0#32 []) = none := by decide

/-- V100: FINISH with both counts: UNCORRECTABLE, and one record. -/
theorem test_finish :
    ends (exec .finish (stateOf 1#2 4#3 2#3 1#3 0#2 0#32 0#32 []))
      (fun t => decide (registers t = (2#2, 4#3, 2#3, 1#3, 3#2) ∧ t.log = [{ ncorr := 2#3, nunc := 1#3 }])) = true := by
  decide

/-- V101: FINISH with no count: OK, no record. -/
theorem test_finish_clean :
    ends (exec .finish (stateOf 1#2 4#3 0#3 0#3 0#2 0#32 0#32 []))
      (fun t => decide (registers t = (2#2, 4#3, 0#3, 0#3, 0#2) ∧ t.log = [])) = true := by decide

/-- V83, V87 and the LOGR words of R61: (2, 1) is 0x11, (4, 0) is 0x20, (0, 4) is 0x04. -/
theorem test_log_words :
    aggregate 4#3 0#3 = outCorrected ∧ aggregate 0#3 4#3 = outUncorrectable ∧
    LogRecord.word { ncorr := 2#3, nunc := 1#3 } = 0x11#6 ∧ LogRecord.word { ncorr := 4#3, nunc := 0#3 } = 0x20#6 ∧
    LogRecord.word { ncorr := 0#3, nunc := 4#3 } = 0x04#6 := by decide

/-- V103: the host's accesses in BUSY are refused; V104: RDR is not. -/
theorem test_host_access_busy :
    takeTurn (.ldd 5#11 1#8) (stateOf 1#2 2#3 1#3 0#3 0#2 0#32 0#32 []) = .refused .hostAccessWhileBusy ∧
    takeTurn (.rdd 5#11) (stateOf 1#2 2#3 1#3 0#3 0#2 0#32 0#32 []) = .refused .hostAccessWhileBusy ∧
    ends (takeTurn .rdr (stateOf 1#2 2#3 1#3 0#3 0#2 0#32 0#32 []))
      (fun t => decide (t.hostReads = [.result 1#2 0#2 1#3 0#3])) = true := ⟨rfl, rfl, rfl⟩

/-- R87: after FINISH the host reads SP = 4; in IDLE there is no such read (U14). -/
theorem test_read_pointer :
    ends (takeTurn .rdsp (stateOf 2#2 4#3 2#3 1#3 3#2 0#32 0#32 [])) (fun t => decide (t.hostReads = [.pointer 4#3])) = true ∧
    takeTurn .rdsp (stateOf 0#2 0#3 0#3 0#3 0#2 0#32 0#32 []) = .refused .pointerReadOutsideDone := ⟨rfl, rfl⟩

/-- R37: in IDLE a written byte is stored, and read back. -/
theorem test_host_access_idle :
    ends (takeTurn (.ldd 2047#11 0x7F#8) (stateOf 0#2 0#3 0#3 0#3 0#2 0#32 0#32 [(1, 2#8)]))
      (fun t => decide (t.data = [(1, 2#8), (2047, 0x7F#8)])) = true ∧
    ends (takeTurn (.rdd 1#11) (stateOf 0#2 0#3 0#3 0#3 0#2 0#32 0#32 [(1, 2#8)]))
      (fun t => decide (t.hostReads = [.dataByte 1#11 2#8])) = true := by decide

/-- R47, R55: SynOf(0x123) and SynOf(0xFFF) (V24, V33), and the byte and bit of 0xABC under both readings (V32). -/
theorem test_addresses :
    synOf 0x123#12 = 0xDC0E2301#32 ∧ synOf 0xFFF#12 = 0x0000FF0F#32 ∧
    byteIndex (offsetOf config 0xABC#12) = 343 ∧ bitInByte (offsetOf config 0xABC#12) = 4 ∧
    byteIndex (offsetOf literalNine 0xABC#12) = 23 := by decide

/-- The placed word is fetched right after power-on: DATAFIX of the last bit. -/
theorem test_withFetchWord_from_reset :
    fetchAction (State.reset.withFetchWord 32 0x0000FF0F) = some (.datafix (Syn.ofWord 0x0000FF0F#32)) := by decide


/-- The expansions of R65: `FILL 2046, 2047`, `LDP`, `RUN`. -/
theorem test_notation :
    fillTurns 2046#11 2047#11 (fun a => BitVec.ofNat 8 a) = [.ldd 2046#11 0xFE#8, .ldd 2047#11 0xFF#8] ∧
    ldpTurns 2 0#32 0xDC0E2301#32 = [.lds 2 0#32, .ldc 2 0xDC0E2301#32] ∧
    runTurns = [.cmd 1#2, .block, .block, .block, .block, .block] := by decide

/-- R36: in the spare buffer that holds its own offsets, STORED[3] is the bytes 3C to 3F and COMPUTED[0] the bytes 40 to 43. -/
theorem test_spare_layout :
    spareWord config.eccByteOrder (Vector.ofFn (fun k : Fin 80 => BitVec.ofNat 8 k.val)) 3 0x30 (by decide) = 0x3C3D3E3F#32 ∧
    spareWord config.eccByteOrder (Vector.ofFn (fun k : Fin 80 => BitVec.ofNat 8 k.val)) 0 0x40 (by decide) = 0x40414243#32 := by
  decide

/-! ### Witnesses: every statement's hypotheses are met, each clause at a boundary of its range -/

/-- DecodeOfEncodeIsTheInstruction: a DATAFIX with the unused bits set (V54), an UNCORR (V48), an ECCFIX, a command. -/
theorem witness_decodeOfEncode :
    (Instr.wf (.datafix (Syn.ofWord 0xFFFF00F0#32)) = true ∧ Instr.hasCode (.datafix (Syn.ofWord 0xFFFF00F0#32)) = true) ∧
    (Instr.wf (.uncorr (Syn.ofWord 0xFFFFFFFE#32)) = true ∧ Instr.hasCode (.uncorr (Syn.ofWord 0xFFFFFFFE#32)) = true) ∧
    (Instr.wf (.eccfix 31) = true ∧ Instr.hasCode (.eccfix 31) = true) ∧
    (Instr.wf .cmdReserved = true ∧ Instr.hasCode .cmdReserved = true) := by decide

/-- ClassIsTheFirstTestThatSucceeds: a pair for each of the five clauses (V36, V39, V41, V54, V47). -/
theorem witness_classClauses :
    (0xFFFFFFFF#32 : Word) = 0xFFFFFFFF#32 ∧
    ((0x5A0F3C01#32 : Word) ≠ 0xFFFFFFFF#32 ∧ (0x5A0F3C01#32 : Word) ^^^ 0x5A0F3C01#32 = 0#32) ∧
    ((0x12345678#32 : Word) ≠ 0xFFFFFFFF#32 ∧ (0x12345678#32 : Word) ^^^ 0x1234D678#32 ≠ 0#32 ∧
      (((0x12345678#32 : Word) ^^^ 0x1234D678#32) - 1#32) &&& (0x12345678#32 ^^^ 0x1234D678#32) = 0#32) ∧
    ((0#32 : Word) ≠ 0xFFFFFFFF#32 ∧ (0#32 : Word) ^^^ 0xFFFF00F0#32 ≠ 0#32 ∧
      (((0#32 : Word) ^^^ 0xFFFF00F0#32) - 1#32) &&& (0#32 ^^^ 0xFFFF00F0#32) ≠ 0#32 ∧
      evenOf config (0#32 ^^^ 0xFFFF00F0#32) ^^^ oddOf config (0#32 ^^^ 0xFFFF00F0#32) = 0xFFF#12) ∧
    ((0#32 : Word) ≠ 0xFFFFFFFF#32 ∧ (0#32 : Word) ^^^ 0xFFFFFFFF#32 ≠ 0#32 ∧
      (((0#32 : Word) ^^^ 0xFFFFFFFF#32) - 1#32) &&& (0#32 ^^^ 0xFFFFFFFF#32) ≠ 0#32 ∧
      evenOf config (0#32 ^^^ 0xFFFFFFFF#32) ^^^ oddOf config (0#32 ^^^ 0xFFFFFFFF#32) ≠ 0xFFF#12) := by decide

/-- SingleBitTestMeansExactlyOneBit: non-zero words with and without one bit. -/
theorem witness_singleBit :
    (0x80000000#32 : Word) ≠ 0#32 ∧ popcount (0x80000000#32 : Word) = 1 ∧
    (0x80000001#32 : Word) ≠ 0#32 ∧ popcount (0x80000001#32 : Word) = 2 := by decide

/-- SyndromeCountsOfEachTest, SynOfGivesEveryValidSyndrome: valid syndromes with the fewest and the most bits (V61, V54). -/
theorem witness_validSyndromes :
    validSignature config 0xFF0F0000#32 = true ∧ popcount (0xFF0F0000#32 : Word) = 12 ∧
    validSignature config 0xFFFF00F0#32 = true ∧ popcount (0xFFFF00F0#32 : Word) = 20 := by decide

/-- SynOfGivesEveryValidSyndrome, UnusedBitsDoNotChangeTheHalves: all the unused bits, and none. -/
theorem witness_unusedBits :
    (0x00F000F0#32 : Word) &&& 0xFF0FFF0F#32 = 0#32 ∧ (0#32 : Word) &&& 0xFF0FFF0F#32 = 0#32 := by decide

/-- SplitTakesTheNamedBits: the last bit of each range. -/
theorem witness_splitBits : 7 < 8 ∧ 3 < 4 := by decide

/-- EveryBitOfASubPageHasOneAddress: the first and the last bit (V61, V60). -/
theorem witness_firstAndLastBit :
    (0 < 512 ∧ 0 < 8 ∧ byteIndex 0#12 = 0 ∧ bitInByte 0#12 = 0) ∧
    (511 < 512 ∧ 7 < 8 ∧ byteIndex 0xFFF#12 = 511 ∧ bitInByte 0xFFF#12 = 7) := by decide

/-- CorrectAcceptedStartsAnOperation: IDLE and DONE; CorrectWhileBusyIsDropped; CorrectInReservedPhaseIsRefused. -/
theorem witness_phases :
    (scheduled 0#2 0#3 []).ph = phIdle ∧ (scheduled 2#2 4#3 []).ph = phDone ∧ (scheduled 1#2 2#3 []).ph = phBusy ∧
    (scheduled 3#2 0#3 []).ph = 3#2 := ⟨rfl, rfl, rfl, rfl⟩

/-- ErasedSubPageIsSkipped, EqualPairIsClean, OneHotSyndromeCountsACorrection: the pair of sub-page 3, and of sub-page 0. -/
theorem witness_skipCleanEccfix :
    (stepSubPage (stateOf 1#2 3#3 0#3 0#3 0#2 0xFFFFFFFF#32 0#32 []) = some 3 ∧
      (stateOf 1#2 3#3 0#3 0#3 0#2 0xFFFFFFFF#32 0#32 []).storedAt 3 = 0xFFFFFFFF#32) ∧
    (stepSubPage (stateOf 1#2 0#3 0#3 0#3 0#2 7#32 7#32 []) = some 0 ∧
      (stateOf 1#2 0#3 0#3 0#3 0#2 7#32 7#32 []).storedAt 0 ≠ 0xFFFFFFFF#32 ∧
      (stateOf 1#2 0#3 0#3 0#3 0#2 7#32 7#32 []).storedAt 0 = (stateOf 1#2 0#3 0#3 0#3 0#2 7#32 7#32 []).computedAt 0) ∧
    (stepSubPage (stateOf 1#2 3#3 0#3 0#3 0#2 0#32 0x80000000#32 []) = some 3 ∧
      (stateOf 1#2 3#3 0#3 0#3 0#2 0#32 0x80000000#32 []).storedAt 3 ≠ 0xFFFFFFFF#32 ∧
      (stateOf 1#2 3#3 0#3 0#3 0#2 0#32 0x80000000#32 []).storedAt 3 ^^^
        (stateOf 1#2 3#3 0#3 0#3 0#2 0#32 0x80000000#32 []).computedAt 3 = 1#32 <<< (31 : Fin 32).val) := by decide

/-- DatafixFlipsExactlyTheNamedBit: the selection on sub-page 3 (V60), and SP at both ends of its range. -/
theorem witness_datafix :
    stepSubPage (stateOf 1#2 3#3 0#3 0#3 0#2 0#32 0x0000FF0F#32 []) = some 3 ∧
    (stateOf 1#2 3#3 0#3 0#3 0#2 0#32 0x0000FF0F#32 []).storedAt 3 ≠ 0xFFFFFFFF#32 ∧
    (Syn.ofWord 0x0000FF0F#32).word = (stateOf 1#2 3#3 0#3 0#3 0#2 0#32 0x0000FF0F#32 []).storedAt 3 ^^^
      (stateOf 1#2 3#3 0#3 0#3 0#2 0#32 0x0000FF0F#32 []).computedAt 3 ∧
    2 ≤ popcount (Syn.ofWord 0x0000FF0F#32).word ∧
    evenOf config (Syn.ofWord 0x0000FF0F#32).word ^^^ oddOf config (Syn.ofWord 0x0000FF0F#32).word = 0xFFF#12 ∧
    (scheduled 1#2 0#3 []).sp.toNat < 4 ∧ (scheduled 1#2 3#3 []).sp.toNat < 4 := by decide

/-- DatafixOutsideTheSubPagesFaults: SP = 4, the least value outside. -/
theorem witness_datafixOutside : 4 ≤ (scheduled 1#2 4#3 []).sp.toNat := by decide

/-- InvalidSignatureCountsUncorrectable: two bits (V46) on sub-page 1. -/
theorem witness_uncorr :
    stepSubPage (stateOf 1#2 1#3 0#3 0#3 0#2 0#32 3#32 []) = some 1 ∧
    (stateOf 1#2 1#3 0#3 0#3 0#2 0#32 3#32 []).storedAt 1 ≠ 0xFFFFFFFF#32 ∧
    (Syn.ofWord 3#32).word = (stateOf 1#2 1#3 0#3 0#3 0#2 0#32 3#32 []).storedAt 1 ^^^
      (stateOf 1#2 1#3 0#3 0#3 0#2 0#32 3#32 []).computedAt 1 ∧
    2 ≤ popcount (Syn.ofWord 3#32).word ∧
    evenOf config (Syn.ofWord 3#32).word ^^^ oddOf config (Syn.ofWord 3#32).word ≠ 0xFFF#12 := by decide

/-- ActionFrame: a DATAFIX and an UNCORR that answer a next state. -/
theorem witness_actionFrame :
    (∃ t, exec (.datafix (Syn.ofWord 0x0000FF0F#32)) (scheduled 1#2 3#3 []) = .next t) ∧
    (∃ t, exec (.uncorr (Syn.ofWord 3#32)) (scheduled 1#2 1#3 []) = .next t) := ⟨⟨_, rfl⟩, ⟨_, rfl⟩⟩

/-- StepPerformsOneActionAndAdvances: SP at both ends; DisabledTransitionsAreRefused: SP = 4 for STEP, SP = 3 for FINISH;
FinishFormsTheAggregate: BUSY with SP = 4. -/
theorem witness_transitions :
    ((scheduled 1#2 0#3 []).ph = phBusy ∧ (scheduled 1#2 0#3 []).sp.toNat < 4) ∧
    ((scheduled 1#2 3#3 []).ph = phBusy ∧ (scheduled 1#2 3#3 []).sp = 3#3 ∧ (scheduled 1#2 3#3 []).sp.toNat < 4) ∧
    ¬((scheduled 1#2 4#3 []).ph = phBusy ∧ (scheduled 1#2 4#3 []).sp.toNat < 4) ∧
    ¬((scheduled 1#2 3#3 []).ph = phBusy ∧ (scheduled 1#2 3#3 []).sp = 4#3) ∧
    ((scheduled 1#2 4#3 []).ph = phBusy ∧ (scheduled 1#2 4#3 []).sp = 4#3) := by decide

/-- StepRunsThePresentedCommand: each code at the head of a schedule. -/
theorem witness_presented (code : BitVec 2) : (scheduled 1#2 2#3 [.cmd code, .block]).schedule = .cmd code :: [.block] := rfl

/-- StepRunsTheDecodedAction: the block's turn from an empty schedule and from its own entry, with STEP enabled (SP = 0 and
3), with FINISH enabled, and with neither. -/
theorem witness_blockTurn :
    ((scheduled 1#2 0#3 []).nextTurn = .block ∧ fetchAction (scheduled 1#2 0#3 []) = some .clean) ∧
    ((scheduled 1#2 3#3 [.block]).nextTurn = .block ∧ fetchAction (scheduled 1#2 3#3 [.block]) = some .clean) ∧
    ((scheduled 1#2 4#3 []).nextTurn = .block ∧ (scheduled 1#2 4#3 []).ph = phBusy ∧ (scheduled 1#2 4#3 []).sp = 4#3) ∧
    ((scheduled 2#2 4#3 []).nextTurn = .block ∧ enabledTransition (scheduled 2#2 4#3 []) = none) := by decide

/-- PlacedWordRunsNext: the largest command code and the largest word. -/
theorem witness_placed : 3 < 4 ∧ 2 ^ 32 - 1 < 2 ^ 32 := by decide

/-- HostAccessFollowsThePhaseTable: IDLE, DONE, and BUSY with a turn that touches the buffers; the last byte of DATA, and
another address. -/
theorem witness_hostAccess :
    (scheduled 0#2 0#3 []).ph = phIdle ∧ (scheduled 2#2 4#3 []).ph = phDone ∧
    ((scheduled 1#2 2#3 []).ph = phBusy ∧ Turn.touchesBuffers (.rdc 3) = true) ∧ 0 ≠ (2047#11).toNat := by decide

/-- HostReadsThePointerInDone: DONE, a FINISH that answers a next state, and the phases IDLE and BUSY. -/
theorem witness_readPointer :
    (scheduled 2#2 4#3 []).ph = phDone ∧ (∃ t, exec .finish (scheduled 1#2 4#3 []) = .next t) ∧
    (scheduled 0#2 0#3 []).ph ≠ phDone ∧ (scheduled 1#2 3#3 []).ph ≠ phDone := ⟨rfl, ⟨_, rfl⟩, by decide, by decide⟩

/-- A state in DONE, not the reset state, that meets the invariant. -/
def doneState : State :=
  { stateOf 2#2 4#3 2#3 1#3 3#2 5#32 6#32 [(0, 1#8), (2047, 2#8)] with log := [{ ncorr := 2#3, nunc := 1#3 }] }

theorem doneState_inv : doneState.Inv := by constructor <;> decide

/-- A state in BUSY that meets the invariant. -/
theorem busyState_inv (q : List Turn) : (scheduled 1#2 3#3 q).Inv := by
  constructor <;> simp [scheduled, stateOf, Memory.wf]

/-- EveryStepKeepsTheInvariant: a state that meets it, with a step that answers a next state. -/
theorem witness_invariantStep :
    (doneState.Inv ∧ ∃ t, step (doneState.setSchedule [.cmd cmdCorrect]) = .next t) ∧
    ((scheduled 1#2 3#3 []).Inv ∧ ∃ t, step (scheduled 1#2 3#3 []) = .next t) :=
  ⟨⟨doneState_inv, ⟨_, rfl⟩⟩, ⟨busyState_inv [], ⟨_, rfl⟩⟩⟩

/-- NoStepRaisesAnException: SP in range, and an UNCORR selected. -/
theorem witness_noException :
    (scheduled 1#2 3#3 []).sp.toNat < 4 ∧
    fetchAction (stateOf 1#2 3#3 0#3 3#3 0#2 0#32 0xFFFFFFFF#32 []) = some (.uncorr (Syn.ofWord 0xFFFFFFFF#32)) := by decide

/-- OnlyUnlawfulTurnsStop: lawful turns (a read of SP in DONE among them), and the three unlawful ones. -/
theorem witness_lawful :
    ((scheduled 1#2 3#3 [.rdr]).Inv ∧ (scheduled 1#2 3#3 [.rdr]).nextTurn.lawful (scheduled 1#2 3#3 [.rdr]) = true) ∧
    ((scheduled 1#2 3#3 [.cmd 3#2]).Inv ∧
      (scheduled 1#2 3#3 [.cmd 3#2]).nextTurn.lawful (scheduled 1#2 3#3 [.cmd 3#2]) = false) ∧
    ((scheduled 1#2 3#3 [.rds 0]).Inv ∧
      (scheduled 1#2 3#3 [.rds 0]).nextTurn.lawful (scheduled 1#2 3#3 [.rds 0]) = false) ∧
    ((scheduled 1#2 3#3 [.rdsp]).Inv ∧
      (scheduled 1#2 3#3 [.rdsp]).nextTurn.lawful (scheduled 1#2 3#3 [.rdsp]) = false) ∧
    (doneState.Inv ∧ Turn.lawful .rdsp doneState = true) :=
  ⟨⟨busyState_inv _, rfl⟩, ⟨busyState_inv _, rfl⟩, ⟨busyState_inv _, rfl⟩, ⟨busyState_inv _, rfl⟩, ⟨doneState_inv, rfl⟩⟩

/-- BlockNeverWritesTheEccWords: an instruction that answers a next state. -/
theorem witness_eccWordsKept : ∃ t, exec .step (scheduled 1#2 3#3 []) = .next t := ⟨_, rfl⟩

/-- EccWordsChangeOnlyByHostWrites: steps that change STORED[3] and COMPUTED[0]. -/
theorem witness_eccWordChanges :
    (∃ t, step (scheduled 0#2 0#3 [.lds 3 9#32]) = .next t ∧ t.storedAt 3 ≠ (scheduled 0#2 0#3 [.lds 3 9#32]).storedAt 3) ∧
    (∃ t, step (scheduled 2#2 4#3 [.ldc 0 9#32]) = .next t ∧
      t.computedAt 0 ≠ (scheduled 2#2 4#3 [.ldc 0 9#32]).computedAt 0) :=
  ⟨⟨_, rfl, by decide⟩, ⟨_, rfl, by decide⟩⟩

/-- DataChangesOnlyByDatafixOrHostWrite: a host write and a DATAFIX, each of the last byte of DATA. -/
theorem witness_dataChanges :
    (∃ t, step ((stateOf 0#2 0#3 0#3 0#3 0#2 0#32 0#32 [(2047, 1#8)]).setSchedule [.ldd 2047#11 2#8]) = .next t ∧
      t.byteAt 2047 ≠ (stateOf 0#2 0#3 0#3 0#3 0#2 0#32 0#32 [(2047, 1#8)]).byteAt 2047) ∧
    (∃ t, step (stateOf 1#2 3#3 0#3 0#3 0#2 0#32 0x0000FF0F#32 [(2047, 1#8)]) = .next t ∧
      t.byteAt 2047 ≠ (stateOf 1#2 3#3 0#3 0#3 0#2 0#32 0x0000FF0F#32 [(2047, 1#8)]).byteAt 2047) :=
  ⟨⟨_, rfl, by decide⟩, ⟨_, rfl, by decide⟩⟩

/-- PhaseChangesOnlyAsListed: the three changes. -/
theorem witness_phaseChanges :
    (∃ t, step (scheduled 0#2 0#3 [.cmd cmdCorrect]) = .next t ∧ t.ph ≠ (scheduled 0#2 0#3 [.cmd cmdCorrect]).ph) ∧
    (∃ t, step (scheduled 1#2 4#3 []) = .next t ∧ t.ph ≠ (scheduled 1#2 4#3 []).ph) ∧
    (∃ t, step (scheduled 1#2 4#3 [.cmd cmdReset]) = .next t ∧ t.ph ≠ (scheduled 1#2 4#3 [.cmd cmdReset]).ph) :=
  ⟨⟨_, rfl, by decide⟩, ⟨_, rfl, by decide⟩, ⟨_, rfl, by decide⟩⟩

/-- PointerAndCountsChangeOnlyAsListed, LogGrowsOnlyAtFinish: a STEP, and a FINISH that logs. -/
theorem witness_countsAndLog :
    (∃ t, step (stateOf 1#2 3#3 3#3 0#3 0#2 0#32 1#32 []) = .next t ∧ t.ncorr = 4#3) ∧
    (∃ t, step (stateOf 1#2 4#3 0#3 4#3 0#2 0#32 1#32 []) = .next t ∧ t.log = [{ ncorr := 0#3, nunc := 4#3 }]) :=
  ⟨⟨_, rfl, by decide⟩, ⟨_, rfl, by decide⟩⟩

/-- StepIsBlindToCountsOutcomeAndLog: two different states that agree on the buffers, SP and PH. -/
theorem witness_blind :
    stateOf 1#2 3#3 2#3 1#3 0#2 0#32 1#32 [] ≠ stateOf 1#2 3#3 0#3 0#3 3#2 0#32 1#32 [] ∧
    (stateOf 1#2 3#3 2#3 1#3 0#2 0#32 1#32 []).data = (stateOf 1#2 3#3 0#3 0#3 3#2 0#32 1#32 []).data ∧
    (stateOf 1#2 3#3 2#3 1#3 0#2 0#32 1#32 []).stored = (stateOf 1#2 3#3 0#3 0#3 3#2 0#32 1#32 []).stored ∧
    (stateOf 1#2 3#3 2#3 1#3 0#2 0#32 1#32 []).computed = (stateOf 1#2 3#3 0#3 0#3 3#2 0#32 1#32 []).computed ∧
    (stateOf 1#2 3#3 2#3 1#3 0#2 0#32 1#32 []).sp = (stateOf 1#2 3#3 0#3 0#3 3#2 0#32 1#32 []).sp ∧
    (stateOf 1#2 3#3 2#3 1#3 0#2 0#32 1#32 []).ph = (stateOf 1#2 3#3 0#3 0#3 3#2 0#32 1#32 []).ph ∧
    (stateOf 1#2 3#3 0#3 0#3 3#2 0#32 1#32 []).ph = phBusy ∧ (stateOf 1#2 3#3 0#3 0#3 3#2 0#32 1#32 []).sp.toNat < 4 := by
  decide

/-- StepIsSubAction: STEP enabled on the first and the last sub-page. -/
theorem witness_stepEnabled :
    stepSubPage (scheduled 1#2 0#3 []) = some 0 ∧ stepSubPage (scheduled 1#2 3#3 []) = some 3 := by decide

/-- BusyBlockReachesDone: SP at both ends, and a number of steps below the remaining ones. -/
theorem witness_busyBlock :
    ((scheduled 1#2 0#3 []).ph = phBusy ∧ (scheduled 1#2 0#3 []).sp.toNat ≤ 4 ∧ (scheduled 1#2 0#3 []).schedule = [] ∧
      4 < 5 - (scheduled 1#2 0#3 []).sp.toNat) ∧
    ((scheduled 1#2 4#3 []).ph = phBusy ∧ (scheduled 1#2 4#3 []).sp.toNat ≤ 4 ∧ (scheduled 1#2 4#3 []).schedule = [] ∧
      0 < 5 - (scheduled 1#2 4#3 []).sp.toNat) := by decide

/-- The turns between the CORRECT and the last turn of the block: a dropped CORRECT, a read and an empty command stand
between the STEPs. -/
def between : List Turn := [.block, .cmd cmdCorrect, .block, .rdr, .block, .cmd cmdNop, .block]

/-- StepMachineComputesCorrectPage: from IDLE and from DONE. -/
theorem witness_stepMachine :
    ((scheduled 0#2 0#3 (.cmd cmdCorrect :: (between ++ .block :: [.rdr]))).ph = phIdle ∧
      (scheduled 2#2 4#3 (.cmd cmdCorrect :: (between ++ .block :: []))).ph = phDone) ∧
    (scheduled 0#2 0#3 (.cmd cmdCorrect :: (between ++ .block :: [.rdr]))).schedule =
      .cmd cmdCorrect :: (between ++ .block :: [.rdr]) ∧
    (∀ t ∈ between, t.insideOperation = true) ∧ between.count .block = 4 := by decide

/-- ResetAbandonsTheOperation: a RESET before any STEP, and after all four. -/
theorem witness_abandon :
    (0 ≤ 4 ∧ (scheduled 0#2 0#3 (.cmd cmdCorrect :: (List.replicate 0 .block ++ .cmd cmdReset :: []))).ph = phIdle) ∧
    (4 ≤ 4 ∧ (scheduled 2#2 4#3 (.cmd cmdCorrect :: (List.replicate 4 .block ++ .cmd cmdReset :: []))).ph = phDone) ∧
    512 * 4 ≤ 2048 := by decide

/-- OrderOfSubPagesDoesNotMatter: the reverse order. -/
theorem witness_order : List.Perm ([3, 2, 1, 0] : List SubIndex) [0, 1, 2, 3] := by decide

/-- AllZeroSyndromesAreOk (V34 in every sub-page). -/
theorem witness_allZero : ∀ i : SubIndex, (#v[0#32, 0#32, 0#32, 0#32] : Vector Word 4)[i.val] =
    (#v[0#32, 0#32, 0#32, 0#32] : Vector Word 4)[i.val] := fun _ => rfl

/-- OneHotSyndromeAloneIsCorrected: bit 31 in sub-page 3, the others skipped or clean. -/
theorem witness_oneHotAlone :
    (#v[erased, 5#32, erased, 0#32] : Vector Word 4)[(3 : SubIndex).val] ≠ erased ∧
    (#v[erased, 5#32, erased, 0#32] : Vector Word 4)[(3 : SubIndex).val] ^^^
      (#v[1#32, 5#32, 2#32, 0x80000000#32] : Vector Word 4)[(3 : SubIndex).val] = 1#32 <<< (31 : Fin 32).val ∧
    (∀ j : SubIndex, j ≠ 3 → (#v[erased, 5#32, erased, 0#32] : Vector Word 4)[j.val] = erased ∨
      (#v[erased, 5#32, erased, 0#32] : Vector Word 4)[j.val] =
        (#v[1#32, 5#32, 2#32, 0x80000000#32] : Vector Word 4)[j.val]) := by decide

/-- ValidSignatureAloneFlipsOneBit: V60 in sub-page 3, the others skipped or clean. -/
theorem witness_validAlone :
    (#v[erased, 5#32, erased, 0#32] : Vector Word 4)[(3 : SubIndex).val] ≠ erased ∧
    validSignature config ((#v[erased, 5#32, erased, 0#32] : Vector Word 4)[(3 : SubIndex).val] ^^^
      (#v[1#32, 5#32, 2#32, 0x0000FF0F#32] : Vector Word 4)[(3 : SubIndex).val]) = true ∧
    (∀ j : SubIndex, j ≠ 3 → (#v[erased, 5#32, erased, 0#32] : Vector Word 4)[j.val] = erased ∨
      (#v[erased, 5#32, erased, 0#32] : Vector Word 4)[j.val] =
        (#v[1#32, 5#32, 2#32, 0x0000FF0F#32] : Vector Word 4)[j.val]) := by decide

/-- OneUncorrectableSubPageOverrides: V46 in sub-page 0. -/
theorem witness_uncorrectable :
    (#v[0#32, 0#32, 0#32, 0#32] : Vector Word 4)[(0 : SubIndex).val] ≠ erased ∧
    2 ≤ popcount ((#v[0#32, 0#32, 0#32, 0#32] : Vector Word 4)[(0 : SubIndex).val] ^^^
      (#v[3#32, 0#32, 0#32, 0#32] : Vector Word 4)[(0 : SubIndex).val]) ∧
    validSignature config ((#v[0#32, 0#32, 0#32, 0#32] : Vector Word 4)[(0 : SubIndex).val] ^^^
      (#v[3#32, 0#32, 0#32, 0#32] : Vector Word 4)[(0 : SubIndex).val]) = false := by decide

/-- ErasedSubPageIsLeftAlone: sub-page 3 erased. -/
theorem witness_erased : (#v[0#32, 0#32, 0#32, erased] : Vector Word 4)[(3 : SubIndex).val] = erased := rfl

/-- RecomputedEccIsClean: the reference generator, any page, the syndrome SynOf(0x123) (V58) in sub-page 2. -/
theorem witness_recomputed (D : Page) :
    GenLinear refGen ∧
    (Vector.ofFn (fun j : SubIndex => refGen (sliceOf D j) ^^^ synOf 0x123#12))[(2 : SubIndex).val] ≠ erased ∧
    (Vector.ofFn (fun j : SubIndex => refGen (sliceOf D j)))[(2 : SubIndex).val] = refGen (sliceOf D 2) ∧
    validSignature config
      ((Vector.ofFn (fun j : SubIndex => refGen (sliceOf D j) ^^^ synOf 0x123#12))[(2 : SubIndex).val] ^^^
        (Vector.ofFn (fun j : SubIndex => refGen (sliceOf D j)))[(2 : SubIndex).val]) = true ∧
    ((Vector.ofFn (fun j : SubIndex => refGen (sliceOf D j) ^^^ synOf 0x123#12))[(2 : SubIndex).val] ^^^
      (Vector.ofFn (fun j : SubIndex => refGen (sliceOf D j)))[(2 : SubIndex).val]) &&& 0x00F000F0#32 = 0#32 := by
  have hx : ∀ w : Word, w ^^^ synOf 0x123#12 ^^^ w = synOf 0x123#12 := fun w => by
    rw [BitVec.xor_comm w, BitVec.xor_assoc, BitVec.xor_self, BitVec.xor_zero]
  refine ⟨genLinear_refGen, ?_, Vector.getElem_ofFn _, ?_, ?_⟩
  · rw [Vector.getElem_ofFn, ← genLinear_refGen]
    exact refGen_ne_erased _
  · rw [Vector.getElem_ofFn, Vector.getElem_ofFn, hx]
    decide
  · rw [Vector.getElem_ofFn, Vector.getElem_ofFn, hx]
    decide

/-- SingleBitErrorIsRepaired: the reference generator, any page, the last bit of sub-page 3. -/
theorem witness_repaired (D : Page) :
    GenLinear refGen ∧ (∀ d, refGen d ≠ erased) ∧
    (∀ j : SubIndex, (Vector.ofFn (fun j : SubIndex => refGen (sliceOf D j)))[j.val] = refGen (sliceOf D j)) ∧
    (∀ j : SubIndex,
      (Vector.ofFn (fun j : SubIndex => refGen (sliceOf (withSlice D 3 (flipAt (sliceOf D 3) 0xFFF#12)) j)))[j.val] =
        refGen (sliceOf (withSlice D 3 (flipAt (sliceOf D 3) 0xFFF#12)) j)) :=
  ⟨genLinear_refGen, refGen_ne_erased, fun _ => Vector.getElem_ofFn _, fun _ => Vector.getElem_ofFn _⟩

end Sys2Proof.Tests
end

section
/-! The inversion of `exec`: what each instruction leaves where it answers a next state. -/

namespace Sys2Proof.Machine

variable {s t : State}

/-- RESET completes from every state (R69). -/
@[simp] theorem exec_reset (s : State) : exec .reset s = .next (s.clearResult.setPh phIdle) := rfl

/-- A CORRECT that answers a next state was accepted (R67) or dropped (R68). -/
theorem execCorrect_next (h : execCorrect s = .next t) :
    ((s.ph = phIdle ∨ s.ph = phDone) ∧ t = s.clearResult.setPh phBusy) ∨ (s.ph = phBusy ∧ t = s) := by
  unfold execCorrect at h
  split at h
  · cases h
    exact .inl ⟨‹_›, rfl⟩
  · split at h
    · cases h
      exact .inr ⟨‹_›, rfl⟩
    · cases h

/-- An action that answers a next state leaves `afterAction`: a DATAFIX outside the four sub-pages answers none. -/
theorem performAction_next {k : SubClass} (h : performAction k s = .next t) : t = afterAction k s := by
  by_cases hsp : s.sp.toNat < 4
  · rw [performAction_eq k hsp] at h
    cases h
    rfl
  · cases k with
    | datafix f => simp [performAction, execDatafix, flipDataBit_eq, hsp] at h
    | _ =>
      cases h
      rfl

/-- A STEP that answers a next state was enabled (R70). -/
theorem execStep_next (h : execStep s = .next t) :
    ∃ i, stepSubPage s = some i ∧ t = (afterAction (s.classAt i) s).advanceSp := by
  cases hi : stepSubPage s with
  | none =>
    simp only [execStep, hi] at h
    cases h
  | some i =>
    rw [execStep_eq hi] at h
    cases h
    exact ⟨i, rfl, rfl⟩

/-- A FINISH that answers a next state was enabled (R87). -/
theorem execFinish_next (h : execFinish s = .next t) : finishEnabled s = true ∧ t = afterFinish s := by
  by_cases hf : finishEnabled s = true
  · rw [execFinish_eq hf] at h
    cases h
    exact ⟨hf, rfl⟩
  · simp [execFinish, hf] at h

end Sys2Proof.Machine
end

section
/-! The register file of the eight ECC words (R14): its numbering, and that no instruction writes it. -/

namespace Sys2Proof.Machine

variable {s t : State}

/-- `x[0..3]` is STORED. -/
theorem State.x_stored (s : State) (i : SubIndex) : s.x ⟨i.val, by omega⟩ = s.storedAt i := by
  simp [State.x, State.storedAt]

/-- `x[4..7]` is COMPUTED. -/
theorem State.x_computed (s : State) (i : SubIndex) : s.x ⟨4 + i.val, by omega⟩ = s.computedAt i := by
  simp [State.x, State.computedAt]

/-- The register file is STORED and COMPUTED, and nothing else of the state. -/
theorem State.x_congr (hs : t.stored = s.stored) (hc : t.computed = s.computed) (k : Fin 8) : t.x k = s.x k := by
  simp only [State.x, hs, hc]

/-- No action writes an ECC word. -/
theorem performAction_keeps_eccWords {k : SubClass} (h : performAction k s = .next t) :
    t.stored = s.stored ∧ t.computed = s.computed := by
  rw [performAction_next h]
  exact ⟨afterAction_stored k s, afterAction_computed k s⟩

/-- No instruction writes an ECC word. -/
theorem exec_keeps_eccWords {i : Instr} (h : exec i s = .next t) :
    t.stored = s.stored ∧ t.computed = s.computed := by
  cases i with
  | nop =>
    cases h
    exact ⟨rfl, rfl⟩
  | correct => obtain ⟨-, rfl⟩ | ⟨-, rfl⟩ := execCorrect_next h <;> simp
  | reset =>
    cases h
    simp
  | cmdReserved => cases h
  | step =>
    obtain ⟨i, -, rfl⟩ := execStep_next h
    simp
  | finish =>
    obtain ⟨-, rfl⟩ := execFinish_next h
    simp
  | skip => exact performAction_keeps_eccWords (k := .skip) h
  | clean => exact performAction_keeps_eccWords (k := .clean) h
  | eccfix b => exact performAction_keeps_eccWords (k := .eccfix b) h
  | datafix f => exact performAction_keeps_eccWords (k := .datafix f) h
  | uncorr f => exact performAction_keeps_eccWords (k := .uncorr f) h

/-- Settles O39: the register file is made of STORED and COMPUTED, and no instruction writes either. -/
theorem blockNeverWritesTheEccWords : Obligations.BlockNeverWritesTheEccWords := by
  unfold Obligations.BlockNeverWritesTheEccWords
  refine ⟨fun s i => ⟨s.x_stored i, s.x_computed i⟩, fun i s t h k => ?_⟩
  obtain ⟨hs, hc⟩ := exec_keeps_eccWords h
  exact State.x_congr hs hc k

/-- Settles O34: the power-on state by its definition, RESET by its next state and the fields of the shared updates. -/
theorem resetValues : Obligations.ResetValues := by
  unfold Obligations.ResetValues
  refine ⟨⟨rfl, rfl, rfl, rfl, rfl, rfl⟩, fun s => ⟨_, exec_reset s, ?_⟩⟩
  simp

end Sys2Proof.Machine
end

section
/-! The tests of the class decode (R48, R52, R57): what the single-bit test says, and the class of a pair for each of
the five outcomes of the tests. -/

namespace Sys2Proof.Machine

/-- The single-bit test is the expression of R52. -/
theorem atMostOneBit_iff {w : Word} : atMostOneBit w = true ↔ (w - 1#32) &&& w = 0#32 := beq_iff_eq

/-- The validity test is the comparison of R48. -/
theorem validSignature_iff {cfg : Config} {w : Word} :
    validSignature cfg w = true ↔ evenOf cfg w ^^^ oddOf cfg w = 0xFFF#12 := beq_iff_eq

/-- Exactly one bit is set in the 32 powers of two and in no other word (R52). -/
theorem popcount_eq_one_iff {w : Word} : popcount w = 1 ↔ ∃ k : Fin 32, w = 1#32 <<< k.val := by
  refine ⟨popcount_eq_one, ?_⟩
  rintro ⟨k, rfl⟩
  exact popcount_shift k

/-- Of the non-zero words the single-bit test passes the powers of two alone (R52). -/
theorem atMostOneBit_iff_shift {w : Word} (h0 : w ≠ 0#32) :
    atMostOneBit w = true ↔ ∃ k : Fin 32, w = 1#32 <<< k.val := by
  refine ⟨fun h => ⟨bitIndex w, eq_shift_of_atMostOneBit h0 h⟩, ?_⟩
  rintro ⟨k, rfl⟩
  exact atMostOneBit_shift k

/-- Settles O5: for a non-zero syndrome both the test and popcount 1 single out the powers of two. -/
theorem singleBitTestMeansExactlyOneBit : Obligations.SingleBitTestMeansExactlyOneBit := by
  unfold Obligations.SingleBitTestMeansExactlyOneBit
  refine ⟨fun syn h0 => ⟨?_, popcount_eq_one_iff⟩, by decide, fun _ => atMostOneBit_iff⟩
  calc (syn - 1#32) &&& syn = 0#32
    _ ↔ atMostOneBit syn = true := atMostOneBit_iff.symm
    _ ↔ ∃ k : Fin 32, syn = 1#32 <<< k.val := atMostOneBit_iff_shift h0
    _ ↔ popcount syn = 1 := popcount_eq_one_iff.symm

variable {cfg : Config} {s c : Word}

/-- The first test, for the erased marker (R51, R57). -/
theorem classOf_erased (hs : s = erased) : classOf cfg s c = .skip := by
  rw [classOf, if_pos hs]

/-- The second test, for the zero syndrome (R57). -/
theorem classOf_zero (hs : s ≠ erased) (h0 : syndrome s c = 0#32) : classOf cfg s c = .clean := by
  rw [classOf, if_neg hs, if_pos h0]

/-- The third test, for one bit (R52, R57). -/
theorem classOf_oneBit (hs : s ≠ erased) (h0 : syndrome s c ≠ 0#32) (h1 : atMostOneBit (syndrome s c) = true) :
    classOf cfg s c = .eccfix (bitIndex (syndrome s c)) := by
  rw [classOf, if_neg hs, if_neg h0, if_pos h1]

/-- The fourth test, for a valid signature of two or more bits (R48, R57). -/
theorem classOf_valid (hs : s ≠ erased) (h0 : syndrome s c ≠ 0#32) (h1 : atMostOneBit (syndrome s c) ≠ true)
    (hv : validSignature cfg (syndrome s c) = true) : classOf cfg s c = .datafix (Syn.ofWord (syndrome s c)) := by
  rw [classOf, if_neg hs, if_neg h0, if_neg h1, if_pos hv]

/-- No test succeeds (R57). -/
theorem classOf_invalid (hs : s ≠ erased) (h0 : syndrome s c ≠ 0#32) (h1 : atMostOneBit (syndrome s c) ≠ true)
    (hv : validSignature cfg (syndrome s c) ≠ true) : classOf cfg s c = .uncorr (Syn.ofWord (syndrome s c)) := by
  rw [classOf, if_neg hs, if_neg h0, if_neg h1, if_neg hv]

/-- The action of a pair whose class is known (R57, last sentence). -/
theorem decodePair_of_classOf {k : SubClass} (h : classOf config s c = k) : decodePair s c = k.toInstr := by
  rw [decodePair, h]

/-- Settles O4: one case for each outcome of the tests; the fields of a DATAFIX or UNCORR are read off the syndrome. -/
theorem classIsTheFirstTestThatSucceeds : Obligations.ClassIsTheFirstTestThatSucceeds := by
  unfold Obligations.ClassIsTheFirstTestThatSucceeds
  intro s c
  refine ⟨fun hs => ?skip, fun hs h0 => ?clean, fun hs h0 h1 => ?eccfix, fun hs h0 h1 hv => ?datafix,
    fun hs h0 h1 hv => ?uncorr⟩
  case skip => exact decodePair_of_classOf (classOf_erased hs)
  case clean => exact decodePair_of_classOf (classOf_zero hs h0)
  case eccfix =>
    have hbit : atMostOneBit (syndrome s c) = true := atMostOneBit_iff.2 h1
    exact ⟨_, eq_shift_of_atMostOneBit h0 hbit, decodePair_of_classOf (classOf_oneBit hs h0 hbit)⟩
  case datafix =>
    have hbit : atMostOneBit (syndrome s c) ≠ true := mt atMostOneBit_iff.1 h1
    have hvalid : validSignature config (syndrome s c) = true := validSignature_iff.2 hv
    exact ⟨_, Syn.word_ofWord _, decodePair_of_classOf (classOf_valid hs h0 hbit hvalid)⟩
  case uncorr =>
    have hbit : atMostOneBit (syndrome s c) ≠ true := mt atMostOneBit_iff.1 h1
    have hvalid : validSignature config (syndrome s c) ≠ true := mt validSignature_iff.1 hv
    exact ⟨_, Syn.word_ofWord _, decodePair_of_classOf (classOf_invalid hs h0 hbit hvalid)⟩

end Sys2Proof.Machine
end

section
/-! The commands CORRECT and RESET (R67 to R69) and the enabling of the block's transitions (R70, R87). -/

namespace Sys2Proof.Machine

variable {s : State}

/-- CORRECT in IDLE or DONE is accepted (R67). -/
theorem execCorrect_accepted (h : s.ph = phIdle ∨ s.ph = phDone) :
    execCorrect s = .next (s.clearResult.setPh phBusy) :=
  if_pos h

/-- CORRECT in BUSY is dropped (R68). -/
theorem execCorrect_dropped (h : s.ph = phBusy) : execCorrect s = .next s := by
  have hclosed : ¬(s.ph = phIdle ∨ s.ph = phDone) := by simp [h]
  rw [execCorrect, if_neg hclosed, if_pos h]

/-- Settles O14: IDLE and DONE are the phases in which CORRECT is accepted. -/
theorem correctAcceptedStartsAnOperation : Obligations.CorrectAcceptedStartsAnOperation := by
  unfold Obligations.CorrectAcceptedStartsAnOperation
  exact ⟨by decide, fun _ => execCorrect_accepted⟩

/-- Settles O15: BUSY is neither IDLE nor DONE, so CORRECT is dropped. -/
theorem correctWhileBusyIsDropped : Obligations.CorrectWhileBusyIsDropped := by
  unfold Obligations.CorrectWhileBusyIsDropped
  exact ⟨by decide, fun _ => execCorrect_dropped⟩

/-- The block has no transition outside BUSY. -/
theorem enabledTransition_eq_none_of_not_busy (h : s.ph ≠ phBusy) : enabledTransition s = none :=
  enabledTransition_eq_none.2 fun hbusy => h hbusy.1

/-- STEP is enabled in BUSY with a sub-page left to process, and nowhere else (R70). -/
theorem enabledTransition_eq_step : enabledTransition s = some .step ↔ s.ph = phBusy ∧ s.sp.toNat < 4 := by
  constructor
  · intro h
    by_contra hdisabled
    rw [enabledTransition, stepSubPage_eq_none.2 hdisabled] at h
    cases hf : finishEnabled s <;> simp [hf] at h
  · rintro ⟨hph, hsp⟩
    have hi : stepSubPage s = some ⟨s.sp.toNat, hsp⟩ := stepSubPage_eq_some.2 ⟨hph, rfl⟩
    simp [enabledTransition, hi]

/-- FINISH is enabled once the last sub-page is behind SP (R87). -/
theorem enabledTransition_eq_finish_of_last (hph : s.ph = phBusy) (hsp : s.sp = 4#3) :
    enabledTransition s = some .finish := by
  have hnone : stepSubPage s = none := stepSubPage_eq_none.2 (by simp [hsp])
  have hf : finishEnabled s = true := finishEnabled_iff.2 ⟨hph, hsp⟩
  simp [enabledTransition, hnone, hf]

/-- Settles O17: RESET leaves IDLE, where the block has no transition. -/
theorem resetClearsRegistersAndKeepsBuffers : Obligations.ResetClearsRegistersAndKeepsBuffers := by
  unfold Obligations.ResetClearsRegistersAndKeepsBuffers
  refine ⟨by decide, fun s => ⟨_, exec_reset s, rfl, ?_⟩⟩
  exact enabledTransition_eq_none_of_not_busy (by simp)

/-- The action a pair decodes to is the action of its class, and completes on a sub-page that exists. -/
theorem exec_decodePair (i : SubIndex) (h : s.sp.toNat < 4) :
    exec (decodePair (s.storedAt i) (s.computedAt i)) s = .next (afterAction (s.classAt i) s) := by
  rw [decodePair, exec_toInstr, performAction_eq _ h]

/-- An action leaves SP alone, so that STEP's advance is SP + 1 of the state before it (R81). -/
theorem advanceSp_afterAction (k : SubClass) (s : State) :
    (afterAction k s).advanceSp = { afterAction k s with sp := s.sp + 1#3 } := by
  rw [State.advanceSp, State.setSp, afterAction_sp]

/-- No command code names the block's STEP (R62, R70). -/
theorem decodeCmd_ne_step (code : BitVec 2) : decodeCmd code ≠ .step := by
  obtain ⟨-, h⟩ | ⟨-, h⟩ | ⟨-, h⟩ | ⟨-, h⟩ := decodeCmd_cases code <;> simp [h]

/-- Settles O26: an enabled STEP leaves the state of its sub-page's action, advanced; from SP = 3 that is SP = 4 in BUSY,
where FINISH is enabled. -/
theorem stepPerformsOneActionAndAdvances : Obligations.StepPerformsOneActionAndAdvances := by
  unfold Obligations.StepPerformsOneActionAndAdvances
  refine ⟨fun _ => enabledTransition_eq_step, fun s hsp hph => ?_, decodeCmd_ne_step⟩
  have hi : stepSubPage s = some ⟨s.sp.toNat, hsp⟩ := stepSubPage_eq_some.2 ⟨hph, rfl⟩
  refine ⟨_, exec_decodePair _ hsp, ?_, fun h3 => ?_⟩
  · rw [← advanceSp_afterAction]
    exact execStep_eq hi
  · rw [← advanceSp_afterAction]
    exact enabledTransition_eq_finish_of_last (by simp [hph]) (by simp [h3])

end Sys2Proof.Machine
end

section
/-! The five sub-page actions (R76 to R80): which pair of ECC words selects each, and what DATAFIX does to one bit. -/

namespace Sys2Proof.Machine

variable {cfg : Config} {s : State} {i : SubIndex} {f : Syn} {w c : Word}

/-- The action of an enabled STEP is the one its sub-page's class selects (R57, R70). -/
theorem fetchAction_of_classAt {k : SubClass} (hi : stepSubPage s = some i) (hk : s.classAt i = k) :
    fetchAction s = some k.toInstr := by
  rw [fetchAction, hi, Option.map_some, decodePair_of_classOf hk]

/-- A syndrome of two or more bits is past the second and the third test (R52, R57). -/
theorem syndrome_passes_bit_tests (hf : syndrome w c = f.word) (hpop : 2 ≤ popcount f.word) :
    syndrome w c ≠ 0#32 ∧ atMostOneBit (syndrome w c) ≠ true := by
  obtain ⟨h0, h1⟩ := two_le_popcount.1 hpop
  rw [hf]
  exact ⟨h0, Bool.eq_false_iff.1 h1⟩

/-- The class of one bit is ECCFIX of that bit (R78). -/
theorem classOf_shift (hw : w ≠ erased) {k : Fin 32} (hk : syndrome w c = 1#32 <<< k.val) :
    classOf cfg w c = .eccfix k := by
  have h := classOf_oneBit (cfg := cfg) hw (hk ▸ shift_ne_zero k) (hk ▸ atMostOneBit_shift k)
  rwa [hk, bitIndex_shift] at h

/-- The class of two or more bits with a valid signature is DATAFIX with the syndrome's fields (R79). -/
theorem classOf_datafix (hw : w ≠ erased) (hf : syndrome w c = f.word) (hpop : 2 ≤ popcount f.word)
    (hv : evenOf cfg f.word ^^^ oddOf cfg f.word = 0xFFF#12) : classOf cfg w c = .datafix f := by
  obtain ⟨h0, h1⟩ := syndrome_passes_bit_tests hf hpop
  have h := classOf_valid hw h0 h1 (hf ▸ validSignature_iff.2 hv)
  rwa [hf, Syn.ofWord_word] at h

/-- The class of two or more bits without a valid signature is UNCORR with the syndrome's fields (R80). -/
theorem classOf_uncorr (hw : w ≠ erased) (hf : syndrome w c = f.word) (hpop : 2 ≤ popcount f.word)
    (hv : evenOf cfg f.word ^^^ oddOf cfg f.word ≠ 0xFFF#12) : classOf cfg w c = .uncorr f := by
  obtain ⟨h0, h1⟩ := syndrome_passes_bit_tests hf hpop
  have h := classOf_invalid hw h0 h1 (hf ▸ mt validSignature_iff.1 hv)
  rwa [hf, Syn.ofWord_word] at h

/-- A bit of DATA after DATAFIX: inverted at the address and index the syndrome names, and as before elsewhere (R79). -/
theorem afterAction_datafix_getLsbD (f : Syn) (s : State) (a k : Nat) :
    ((afterAction (.datafix f) s).byteAt a).getLsbD k =
      ((s.byteAt a).getLsbD k ^^
        decide (a = dataAddress s.sp.toNat (datafixOffset config f) ∧ k = bitInByte (datafixOffset config f))) := by
  rw [afterAction_byteAt]
  by_cases ha : a = dataAddress s.sp.toNat (datafixOffset config f)
  · simp [ha, flipMask_getLsbD]
  · simp [ha]

/-- With OFFSET_BITS = 12 the offset is all of `odd` (R50, R56; log entry 9). -/
theorem datafixOffset_config (f : Syn) : datafixOffset config f = oddOf config f.word := by
  simp [datafixOffset, offsetOf, config]

/-- Settles O22: the class of a valid signature selects the action; on a sub-page that exists DATAFIX completes with
`afterAction`, bit by bit as `afterAction_datafix_getLsbD` says. -/
theorem datafixFlipsExactlyTheNamedBit : Obligations.DatafixFlipsExactlyTheNamedBit := by
  unfold Obligations.DatafixFlipsExactlyTheNamedBit
  refine ⟨fun s i f hi hs hf hpop hv => ?selected, fun f s hsp => ?effect, fun f i => ?address⟩
  case selected => exact fetchAction_of_classAt hi (classOf_datafix hs hf.symm hpop hv)
  case effect =>
    refine ⟨afterAction (.datafix f) s, performAction_eq (.datafix f) hsp, afterAction_datafix_getLsbD f s,
      afterAction_ncorr .., afterAction_nunc .., ?_⟩
    simp
  case address =>
    rw [datafixOffset_config]
    exact ⟨rfl, rfl, rfl⟩

/-- Settles O19: the marker is the first test, and SKIP leaves the state as it is. -/
theorem erasedSubPageIsSkipped : Obligations.ErasedSubPageIsSkipped := by
  unfold Obligations.ErasedSubPageIsSkipped
  exact ⟨fun _ _ hi hs => fetchAction_of_classAt hi (classOf_erased hs), fun _ => rfl⟩

/-- Settles O20: equal words have the zero syndrome, and CLEAN leaves the state as it is. -/
theorem equalPairIsClean : Obligations.EqualPairIsClean := by
  unfold Obligations.EqualPairIsClean
  refine ⟨fun s i hi hs heq => ?_, fun _ => rfl⟩
  have h0 : syndrome (s.storedAt i) (s.computedAt i) = 0#32 := BitVec.xor_eq_zero_iff.2 heq
  exact fetchAction_of_classAt hi (classOf_zero hs h0)

/-- Settles O21: a power of two selects ECCFIX of its bit, whose one effect is the count. -/
theorem oneHotSyndromeCountsACorrection : Obligations.OneHotSyndromeCountsACorrection := by
  unfold Obligations.OneHotSyndromeCountsACorrection
  exact ⟨fun _ _ _ hi hs hk => fetchAction_of_classAt hi (classOf_shift hs hk), fun _ _ => rfl⟩

/-- Settles O24: an invalid signature of two or more bits selects UNCORR, whose one effect is the count. -/
theorem invalidSignatureCountsUncorrectable : Obligations.InvalidSignatureCountsUncorrectable := by
  unfold Obligations.InvalidSignatureCountsUncorrectable
  exact ⟨fun _ _ _ hi hs hf hpop hv => fetchAction_of_classAt hi (classOf_uncorr hs hf.symm hpop hv), fun _ _ => rfl⟩

end Sys2Proof.Machine
end

section
/-! FINISH (R87 to R89): where it is enabled, and the outcome and the record it forms of the final counts. -/

namespace Sys2Proof.Machine

variable {s : State}

/-- FINISH is enabled in BUSY with every sub-page processed, and nowhere else (R87). -/
theorem enabledTransition_eq_finish : enabledTransition s = some .finish ↔ s.ph = phBusy ∧ s.sp = 4#3 := by
  refine ⟨fun h => ?_, fun ⟨hph, hsp⟩ => enabledTransition_eq_finish_of_last hph hsp⟩
  by_contra hdisabled
  have hf : finishEnabled s ≠ true := mt finishEnabled_iff.1 hdisabled
  cases hi : stepSubPage s <;> simp [enabledTransition, hi, hf] at h

/-- No command code names the block's FINISH (R62, R87). -/
theorem decodeCmd_ne_finish (code : BitVec 2) : decodeCmd code ≠ .finish := by
  obtain ⟨-, h⟩ | ⟨-, h⟩ | ⟨-, h⟩ | ⟨-, h⟩ := decodeCmd_cases code <;> simp [h]

/-- The outcome of the two registers is that of the counts they hold (R88). -/
theorem aggregate_eq_aggregateNat (ncorr nunc : BitVec 3) :
    aggregate ncorr nunc = aggregateNat ncorr.toNat nunc.toNat := by
  simp only [aggregate, aggregateNat, gt_iff_lt, Nat.pos_iff_ne_zero, BitVec.toNat_ne, BitVec.toNat_zero]

/-- LOG gains one record when either count, as a number, is non-zero, and is unchanged otherwise (R89). -/
theorem append_logRecords (log : List LogRecord) (ncorr nunc : BitVec 3) :
    log ++ logRecords ncorr nunc =
      if ncorr.toNat ≠ 0 ∨ nunc.toNat ≠ 0 then log ++ [{ ncorr := ncorr, nunc := nunc }] else log := by
  simp only [logRecords, BitVec.toNat_ne, BitVec.toNat_zero]
  split <;> simp

/-- What FINISH leaves: OUTCOME, LOG and PH are written, the rest of the state is as before (R87 to R89). -/
theorem afterFinish_eq (s : State) :
    afterFinish s = { s with
      outcome := aggregate s.ncorr s.nunc
      log := s.log ++ logRecords s.ncorr s.nunc
      ph := phDone } := rfl

/-- Settles O28: an enabled FINISH leaves `afterFinish`, whose outcome and record depend on which counts are non-zero. -/
theorem finishFormsTheAggregate : Obligations.FinishFormsTheAggregate := by
  unfold Obligations.FinishFormsTheAggregate
  refine ⟨fun _ => enabledTransition_eq_finish, fun s hph hsp => ?_, decodeCmd_ne_finish⟩
  have hnext : exec .finish s = .next (afterFinish s) := execFinish_eq (finishEnabled_iff.2 ⟨hph, hsp⟩)
  rw [hnext, afterFinish_eq, aggregate_eq_aggregateNat, append_logRecords]
  rfl

end Sys2Proof.Machine
end

section
/-! The block raises no exception (R95): no turn faults, and every pair of ECC words selects a well-formed action that
completes. -/

namespace Sys2Proof

/-- The well-formedness of a DATAFIX syndrome, test by test (R79). -/
theorem Syn.wfDatafix_iff {f : Syn} :
    f.wfDatafix = true ↔
      f.word ≠ 0#32 ∧ Machine.atMostOneBit f.word ≠ true ∧ Machine.validSignature Machine.config f.word = true := by
  simp [Syn.wfDatafix, Syn.twoOrMoreBits, and_assoc]

/-- The well-formedness of an UNCORR syndrome, test by test (R80). -/
theorem Syn.wfUncorr_iff {f : Syn} :
    f.wfUncorr = true ↔
      f.word ≠ 0#32 ∧ Machine.atMostOneBit f.word ≠ true ∧ Machine.validSignature Machine.config f.word ≠ true := by
  simp [Syn.wfUncorr, Syn.twoOrMoreBits, and_assoc]

/-- Different classes select different actions (R57). -/
theorem SubClass.toInstr_injective : Function.Injective SubClass.toInstr := by
  intro k l h
  cases k <;> cases l <;> cases h <;> rfl

end Sys2Proof

namespace Sys2Proof.Machine

variable {s : State}

/-- Every pair decodes to a well-formed action: the tests that failed before a DATAFIX or an UNCORR are the ones its
well-formedness asks about (R57, R79, R80). -/
theorem decodePair_wf (w c : Word) : (decodePair w c).wf = true := by
  by_cases hw : w = erased
  · rw [decodePair_of_classOf (classOf_erased hw)]
    rfl
  by_cases h0 : syndrome w c = 0#32
  · rw [decodePair_of_classOf (classOf_zero hw h0)]
    rfl
  by_cases h1 : atMostOneBit (syndrome w c) = true
  · rw [decodePair_of_classOf (classOf_oneBit hw h0 h1)]
    rfl
  by_cases hv : validSignature config (syndrome w c) = true
  · rw [decodePair_of_classOf (classOf_valid hw h0 h1 hv)]
    exact Syn.wfDatafix_iff.2 (by simpa only [Syn.word_ofWord] using ⟨h0, h1, hv⟩)
  · rw [decodePair_of_classOf (classOf_invalid hw h0 h1 hv)]
    exact Syn.wfUncorr_iff.2 (by simpa only [Syn.word_ofWord] using ⟨h0, h1, hv⟩)

/-- Where the enabled STEP performs the action of a class, its sub-page's pair has that class (R57, R70). -/
theorem classAt_of_fetchAction {k : SubClass} (h : fetchAction s = some k.toInstr) :
    ∃ i, stepSubPage s = some i ∧ s.classAt i = k := by
  obtain ⟨i, hi, hk⟩ := Option.map_eq_some_iff.1 h
  exact ⟨i, hi, SubClass.toInstr_injective hk⟩

/-- A read at an 11-bit address stays inside DATA (R28, R30). -/
theorem memRead_dataAddr (s : State) (a : DataAddr) : memRead s a.toNat = .ok (s.byteAt a.toNat) :=
  if_pos a.isLt

/-- A write at an 11-bit address stays inside DATA (R28, R30). -/
theorem memWrite_dataAddr (s : State) (a : DataAddr) (v : Byte) :
    memWrite s a.toNat v = .ok (s.setData (s.data.write a.toNat v)) :=
  if_pos a.isLt

/-- The phase guard of the buffers refuses; it raises no fault of its own (R37). -/
theorem whenBuffersOpen_next_ne_fault (s t : State) (r : Fault) : whenBuffersOpen s (.next t) ≠ .fault r := by
  unfold whenBuffersOpen
  split
  · nofun
  · split <;> nofun

/-- A read of SP is answered or refused (R87). -/
theorem hostReadPointer_ne_fault (s : State) (r : Fault) : hostReadPointer s ≠ .fault r := by
  unfold hostReadPointer
  split <;> nofun

/-- CORRECT is accepted, dropped or refused (R67, R68). -/
theorem execCorrect_ne_fault (s : State) (r : Fault) : execCorrect s ≠ .fault r := by
  unfold execCorrect
  split
  · nofun
  · split <;> nofun

/-- No command faults (R62, R95). -/
theorem exec_decodeCmd_ne_fault (code : BitVec 2) (s : State) (r : Fault) : exec (decodeCmd code) s ≠ .fault r := by
  obtain ⟨-, h⟩ | ⟨-, h⟩ | ⟨-, h⟩ | ⟨-, h⟩ := decodeCmd_cases code <;> rw [h]
  · nofun
  · exact execCorrect_ne_fault s r
  · nofun
  · nofun

/-- The block's turn always answers a next state: an enabled STEP has SP < 4, so its DATAFIX stays inside DATA (R70). -/
theorem blockTurn_ne_fault (s : State) (r : Fault) : blockTurn s ≠ .fault r := by
  obtain ⟨i, -, h⟩ | ⟨-, -, h⟩ | ⟨-, h⟩ := blockTurn_cases s <;> rw [h] <;> nofun

/-- No turn of the host or of the block faults, in any phase (R95). -/
theorem takeTurn_ne_fault (u : Turn) (s : State) (r : Fault) : takeTurn u s ≠ .fault r := by
  cases u with
  | cmd code => exact exec_decodeCmd_ne_fault code s r
  | ldd a v =>
    rw [takeTurn, hostWriteData, memWrite_dataAddr]
    exact whenBuffersOpen_next_ne_fault s _ r
  | lds i w => exact whenBuffersOpen_next_ne_fault s _ r
  | ldc i w => exact whenBuffersOpen_next_ne_fault s _ r
  | rdd a =>
    rw [takeTurn, hostReadData, memRead_dataAddr]
    exact whenBuffersOpen_next_ne_fault s _ r
  | rds i => exact whenBuffersOpen_next_ne_fault s _ r
  | rdc i => exact whenBuffersOpen_next_ne_fault s _ r
  | rdr => nofun
  | rdsp => exact hostReadPointer_ne_fault s r
  | block => exact blockTurn_ne_fault s r

/-- Settles O37: a step is a turn, and no turn faults; the action of a pair's class is well-formed and completes; the
STEP over an UNCORR leaves its one count and SP advanced. -/
theorem noStepRaisesAnException : Obligations.NoStepRaisesAnException := by
  unfold Obligations.NoStepRaisesAnException
  refine ⟨fun s r => ?noFault, fun s c d hsp => ⟨decodePair_wf c d, ?completes⟩, fun s f hf => ?uncorr⟩
  case noFault =>
    rw [step_eq]
    exact takeTurn_ne_fault _ _ r
  case completes =>
    rw [decodePair, exec_toInstr]
    exact ⟨_, performAction_eq _ hsp⟩
  case uncorr =>
    obtain ⟨i, hi, hk⟩ := classAt_of_fetchAction (k := .uncorr f) hf
    have hnext : exec .step s = .next (afterAction (s.classAt i) s).advanceSp := execStep_eq hi
    rw [hnext, hk]
    rfl

end Sys2Proof.Machine
end

section
/-! Encode and decode (R31, R46, R57, R62): the bytes of a command and of a pair of ECC words read back as what they
stand for. -/

namespace Sys2Proof

/-- Under the model's byte order a word is assembled from its own bytes (R31). -/
theorem eccWord_extract (w : Word) :
    eccWord Machine.config.eccByteOrder (w.extractLsb' 24 8) (w.extractLsb' 16 8) (w.extractLsb' 8 8)
      (w.extractLsb' 0 8) = w :=
  eccWord_bytes .bigEndian w

/-- The eight bytes of a pair decode to the action the pair selects. -/
theorem decode_eccBytesOf (s c : Word) :
    decode (eccBytesOf Machine.config.eccByteOrder s ++ eccBytesOf Machine.config.eccByteOrder c) =
      .ok (decodePair s c) :=
  calc decode (eccBytesOf Machine.config.eccByteOrder s ++ eccBytesOf Machine.config.eccByteOrder c)
    _ = .ok (decodePair
          (eccWord Machine.config.eccByteOrder (s.extractLsb' 24 8) (s.extractLsb' 16 8) (s.extractLsb' 8 8)
            (s.extractLsb' 0 8))
          (eccWord Machine.config.eccByteOrder (c.extractLsb' 24 8) (c.extractLsb' 16 8) (c.extractLsb' 8 8)
            (c.extractLsb' 0 8))) := rfl
    _ = .ok (decodePair s c) := by rw [eccWord_extract, eccWord_extract]

/-- With a zero stored word the syndrome is the computed word (R45). -/
theorem syndrome_zero_stored (c : Word) : Machine.syndrome 0#32 c = c := BitVec.zero_xor

/-- The zero stored word is not the erased marker (R51). -/
theorem zero_ne_erased : (0#32 : Word) ≠ erased := by decide

/-- A one-hot computed word beside a zero stored word selects the ECCFIX of its bit (R78). -/
theorem decodePair_zero_shift (k : Fin 32) : decodePair 0#32 (1#32 <<< k.val) = .eccfix k :=
  Machine.decodePair_of_classOf (Machine.classOf_shift zero_ne_erased (syndrome_zero_stored _))

/-- A well-formed DATAFIX syndrome as the computed word beside a zero stored word selects that DATAFIX (R79). -/
theorem decodePair_zero_wfDatafix {f : Syn} (h : f.wfDatafix = true) : decodePair 0#32 f.word = .datafix f := by
  obtain ⟨h0, h1, hv⟩ := Syn.wfDatafix_iff.1 h
  have hpop : 2 ≤ Machine.popcount f.word := Machine.two_le_popcount.2 ⟨h0, Bool.eq_false_iff.2 h1⟩
  exact Machine.decodePair_of_classOf (k := .datafix f)
    (Machine.classOf_datafix zero_ne_erased (syndrome_zero_stored _) hpop (Machine.validSignature_iff.1 hv))

/-- A well-formed UNCORR syndrome as the computed word beside a zero stored word selects that UNCORR (R80). -/
theorem decodePair_zero_wfUncorr {f : Syn} (h : f.wfUncorr = true) : decodePair 0#32 f.word = .uncorr f := by
  obtain ⟨h0, h1, hv⟩ := Syn.wfUncorr_iff.1 h
  have hpop : 2 ≤ Machine.popcount f.word := Machine.two_le_popcount.2 ⟨h0, Bool.eq_false_iff.2 h1⟩
  exact Machine.decodePair_of_classOf (k := .uncorr f)
    (Machine.classOf_uncorr zero_ne_erased (syndrome_zero_stored _) hpop (mt Machine.validSignature_iff.2 hv))

/-- The pair the encoder gives an action selects that action (R57; log entry 16). -/
theorem decodePair_of_pairOf {i : Instr} {s c : Word} (hp : pairOf i = some (s, c)) (hwf : i.wf = true) :
    decodePair s c = i := by
  cases i <;> cases hp
  case skip => exact Machine.decodePair_of_classOf (k := .skip) (Machine.classOf_erased rfl)
  case clean => exact Machine.decodePair_of_classOf (k := .clean) (Machine.classOf_zero zero_ne_erased (by decide))
  case eccfix k => exact decodePair_zero_shift k
  case datafix f => exact decodePair_zero_wfDatafix hwf
  case uncorr f => exact decodePair_zero_wfUncorr hwf

/-- The byte of a command decodes to the command (R62). -/
theorem decode_of_cmdOf {i : Instr} {code : BitVec 2} (h : cmdOf i = some code) :
    decode [code.setWidth 8] = .ok i := by
  cases i <;> cases h <;> decide

/-- Settles O1: a command is one byte and decodes by its code; an action is a pair, and its pair selects it. -/
theorem decodeOfEncodeIsTheInstruction : Obligations.DecodeOfEncodeIsTheInstruction := by
  unfold Obligations.DecodeOfEncodeIsTheInstruction
  intro i hwf hcode
  cases hc : cmdOf i with
  | some code =>
    rw [encode, hc]
    exact decode_of_cmdOf hc
  | none =>
    cases hp : pairOf i with
    | none => simp [Instr.hasCode, hc, hp] at hcode
    | some p =>
      obtain ⟨s, c⟩ := p
      rw [encode, hc, hp, ← decodePair_of_pairOf hp hwf]
      exact decode_eccBytesOf s c

/-- Settles O2: the bytes of a big-endian word are its fields, most significant first. -/
theorem eccBytesAssembleBigEndian : Obligations.EccBytesAssembleBigEndian := by
  unfold Obligations.EccBytesAssembleBigEndian
  intro s0 s1 s2 s3 c0 c1 c2 c3
  have hword : eccWord Machine.config.eccByteOrder s0 s1 s2 s3 = s0 ++ s1 ++ s2 ++ s3 := rfl
  rw [hword]
  refine ⟨?_, ?_, ?_, BitVec.extractLsb'_append_eq_right, rfl⟩
  · rw [BitVec.extractLsb'_append_eq_of_le (by decide), BitVec.extractLsb'_append_eq_of_le (by decide)]
    exact BitVec.extractLsb'_append_eq_left
  · rw [BitVec.extractLsb'_append_eq_of_le (by decide), BitVec.extractLsb'_append_eq_of_le (by decide)]
    exact BitVec.extractLsb'_append_eq_right
  · rw [BitVec.extractLsb'_append_eq_of_le (by decide)]
    exact BitVec.extractLsb'_append_eq_right

/-- Settles O3: the decoder run on each of the written byte strings. -/
theorem writtenWordsDecode : Obligations.WrittenWordsDecode := by
  unfold Obligations.WrittenWordsDecode
  decide

end Sys2Proof
end

section
/-! The invariant of every reachable state (R27): it holds after power-on, and every effect a turn can have keeps it. -/

namespace Sys2Proof.Machine

variable {s t : State}

/-- The outcome of two counts is never code 2 (R59, R88). -/
theorem aggregateNat_ne_two (ncorr nunc : Nat) : aggregateNat ncorr nunc ≠ 2#2 := by
  unfold aggregateNat
  split
  · decide
  · split <;> decide

/-- The outcome of the two registers is never code 2 (R59, R88). -/
theorem aggregate_ne_two (ncorr nunc : BitVec 3) : aggregate ncorr nunc ≠ 2#2 := by
  rw [aggregate_eq_aggregateNat]
  exact aggregateNat_ne_two _ _

/-- The records of counts that add up to at most four are records FINISH can emit (R61, R89). -/
theorem logRecords_ok {ncorr nunc : BitVec 3} (h : ncorr.toNat + nunc.toNat ≤ 4) :
    ∀ r ∈ logRecords ncorr nunc, r.ok := by
  intro r hr
  unfold logRecords at hr
  split at hr
  · rw [List.mem_singleton.1 hr]
    exact ⟨‹_›, h⟩
  · cases hr

/-- A 3-bit count that is increased grows by at most one, wrapping or not. -/
theorem toNat_add_one_le (v : BitVec 3) : (v + 1#3).toNat ≤ v.toNat + 1 := by
  rw [BitVec.toNat_add]
  exact Nat.mod_le _ _

/-- An action counts its sub-page at most once (R81). -/
theorem afterAction_counts_le (k : SubClass) (s : State) :
    (afterAction k s).ncorr.toNat + (afterAction k s).nunc.toNat ≤ s.ncorr.toNat + s.nunc.toNat + 1 := by
  have hcorr := toNat_add_one_le s.ncorr
  have hunc := toNat_add_one_le s.nunc
  cases k <;> simp only [afterAction_ncorr, afterAction_nunc] <;> omega

/-- An action on a sub-page that exists keeps the memory canonical. -/
theorem afterAction_wf (k : SubClass) (hm : s.data.wf) (hsp : s.sp.toNat < 4) : (afterAction k s).data.wf := by
  cases k with
  | datafix f => exact flippedData_wf hm hsp _
  | _ => exact hm

/-- STEP's advance of SP does not wrap. -/
theorem toNat_sp_add_one (hsp : s.sp.toNat < 4) : (s.sp + 1#3).toNat = s.sp.toNat + 1 := by
  rw [BitVec.toNat_add]
  exact Nat.mod_eq_of_lt (by simp; omega)

/-- The invariant speaks of DATA, the control and result registers and LOG alone. -/
theorem State.Inv.congr (hs : s.Inv) (hdata : t.data = s.data) (hsp : t.sp = s.sp) (hncorr : t.ncorr = s.ncorr)
    (hnunc : t.nunc = s.nunc) (houtcome : t.outcome = s.outcome) (hph : t.ph = s.ph) (hlog : t.log = s.log) :
    t.Inv := by
  obtain ⟨h1, h2, h3, h4, h5, h6, h7, h8, h9, h10⟩ := hs
  constructor <;> simp only [hdata, hsp, hncorr, hnunc, houtcome, hph, hlog] <;> assumption

/-- CORRECT and RESET leave cleared registers in a phase of BUSY or IDLE (R67, R69). -/
theorem State.Inv.clearResult_setPh (hs : s.Inv) {p : BitVec 2} (hp : p = phIdle ∨ p = phBusy) :
    (s.clearResult.setPh p).Inv := by
  have hdone : p ≠ phDone := by
    rcases hp with rfl | rfl <;> decide
  exact {
    phase := hp.imp id .inl
    spBound := by simp
    idle := fun _ => ⟨rfl, rfl, rfl, rfl⟩
    doneSp := fun h => absurd h hdone
    counts := by simp
    busyOutcome := fun _ => rfl
    doneOutcome := fun h => absurd h hdone
    outcomeCode := by simp
    logOk := hs.logOk
    memory := hs.memory }

/-- A write inside DATA keeps the invariant. -/
theorem State.Inv.setData (hs : s.Inv) {m : Memory} (hm : m.wf) : (s.setData m).Inv :=
  { hs with memory := hm }

/-- An enabled STEP keeps the invariant: it counts its sub-page at most once and moves SP past it (R70, R81). -/
theorem State.Inv.stepped (hs : s.Inv) {i : SubIndex} (hi : stepSubPage s = some i) (k : SubClass) :
    (afterAction k s).advanceSp.Inv := by
  obtain ⟨hph, hsp⟩ := stepSubPage_eq_some.1 hi
  have hlt : s.sp.toNat < 4 := hsp ▸ i.isLt
  have hadvance := toNat_sp_add_one hlt
  have hcounts := afterAction_counts_le k s
  have hbound := hs.counts
  exact {
    phase := .inr (.inl (by simp [hph]))
    spBound := by simp only [State.advanceSp_sp, afterAction_sp]; omega
    idle := fun h => by simp [hph] at h
    doneSp := fun h => by simp [hph] at h
    counts := by
      simp only [State.advanceSp_sp, State.advanceSp_ncorr, State.advanceSp_nunc, afterAction_sp]
      omega
    busyOutcome := fun _ => by simpa using hs.busyOutcome hph
    doneOutcome := fun h => by simp [hph] at h
    outcomeCode := by simpa using hs.outcomeCode
    logOk := by simpa using hs.logOk
    memory := afterAction_wf k hs.memory hlt }

/-- FINISH keeps the invariant: the outcome is the aggregate, and the record is one of at most four counts (R87 to
R89). -/
theorem State.Inv.finished (hs : s.Inv) (hsp : s.sp = 4#3) : (afterFinish s).Inv := by
  have hcounts : s.ncorr.toNat + s.nunc.toNat ≤ 4 := by simpa [hsp] using hs.counts
  exact {
    phase := .inr (.inr rfl)
    spBound := hs.spBound
    idle := fun h => absurd h phDone_ne_phIdle
    doneSp := fun _ => hsp
    counts := hs.counts
    busyOutcome := fun h => absurd h phDone_ne_phBusy
    doneOutcome := fun _ => rfl
    outcomeCode := aggregate_ne_two _ _
    logOk := fun r hr => (List.mem_append.1 hr).elim (hs.logOk r) (logRecords_ok hcounts r)
    memory := hs.memory }

/-- Every effect of a turn keeps the invariant. -/
theorem TurnEffect.keeps_inv {u : Turn} (h : TurnEffect s u t) (hs : s.Inv) : t.Inv := by
  cases h with
  | nop | dropped | idle => exact hs
  | accepted => exact hs.clearResult_setPh (.inr rfl)
  | reset => exact hs.clearResult_setPh (.inl rfl)
  | dataWrite a v => exact hs.setData (Memory.wf_write hs.memory a.isLt v)
  | storedWrite | computedWrite | read => exact hs.congr rfl rfl rfl rfl rfl rfl rfl
  | stepped i hi => exact hs.stepped hi _
  | finished _ hsp => exact hs.finished hsp

/-- Settles O36: a step is one effect of a turn, on a state that differs in the schedule alone. -/
theorem everyStepKeepsTheInvariant : Obligations.EveryStepKeepsTheInvariant := by
  unfold Obligations.EveryStepKeepsTheInvariant
  intro s t hs hstep
  have hschedule : (s.setSchedule s.restOfSchedule).Inv := hs.congr rfl rfl rfl rfl rfl rfl rfl
  exact (step_next hstep).keeps_inv hschedule

/-- Settles O35: after power-on the block is in IDLE, everything is zero and nothing is listed. -/
theorem powerOnMeetsTheInvariant : Obligations.PowerOnMeetsTheInvariant := by
  unfold Obligations.PowerOnMeetsTheInvariant
  exact {
    phase := .inl rfl
    spBound := by decide
    idle := fun _ => ⟨rfl, rfl, rfl, rfl⟩
    doneSp := fun h => absurd h phIdle_ne_phDone
    counts := by decide
    busyOutcome := fun _ => rfl
    doneOutcome := fun _ => rfl
    outcomeCode := by decide
    logOk := nofun
    memory := reset_memory_wf }

end Sys2Proof.Machine
end

section
/-! What a step can change (R11, R15 to R20, R27 (f)): each field is read off the effect of the turn. -/

namespace Sys2Proof.Machine

variable {s t : State} {u : Turn}

/-- The phases in which the buffers are open are not BUSY (R37). -/
theorem ne_phBusy_of_open (h : s.ph = phIdle ∨ s.ph = phDone) : s.ph ≠ phBusy := by
  rcases h with h | h <;> simp [h]

/-- STORED[i] changes by the host's write of it, and by no other effect (R27 (f)). -/
theorem TurnEffect.storedAt_of_ne {i : SubIndex} (h : TurnEffect s u t) (hne : t.storedAt i ≠ s.storedAt i) :
    ∃ w : Word, u = .lds i w ∧ t.storedAt i = w := by
  cases h with
  | storedWrite j w =>
    by_cases hj : j = i
    · exact ⟨w, by rw [hj], by rw [State.setStored_storedAt, if_pos hj]⟩
    · exact absurd (by rw [State.setStored_storedAt, if_neg hj]) hne
  | stepped => exact absurd (by simp [State.storedAt]) hne
  | _ => exact absurd rfl hne

/-- COMPUTED[i] changes by the host's write of it, and by no other effect (R27 (f)). -/
theorem TurnEffect.computedAt_of_ne {i : SubIndex} (h : TurnEffect s u t) (hne : t.computedAt i ≠ s.computedAt i) :
    ∃ w : Word, u = .ldc i w ∧ t.computedAt i = w := by
  cases h with
  | computedWrite j w =>
    by_cases hj : j = i
    · exact ⟨w, by rw [hj], by rw [State.setComputed_computedAt, if_pos hj]⟩
    · exact absurd (by rw [State.setComputed_computedAt, if_neg hj]) hne
  | stepped => exact absurd (by simp [State.computedAt]) hne
  | _ => exact absurd rfl hne

/-- Settles O40: the only effects on STORED and COMPUTED are the host's writes. -/
theorem eccWordsChangeOnlyByHostWrites : Obligations.EccWordsChangeOnlyByHostWrites := by
  unfold Obligations.EccWordsChangeOnlyByHostWrites
  intro s t i h
  exact ⟨(step_next h).storedAt_of_ne, (step_next h).computedAt_of_ne⟩

/-- Of the actions a DATAFIX alone changes a byte, the one it names (R79, R81). -/
theorem afterAction_byteAt_of_ne {k : SubClass} {a : Nat} (hne : (afterAction k s).byteAt a ≠ s.byteAt a) :
    ∃ f, k = .datafix f ∧ a = dataAddress s.sp.toNat (datafixOffset config f) := by
  rw [afterAction_byteAt] at hne
  cases k with
  | datafix f =>
    refine ⟨f, rfl, ?_⟩
    by_contra ha
    exact hne (if_neg ha)
  | _ => exact absurd rfl hne

/-- A byte of DATA changes by a host write of it outside BUSY, or by the DATAFIX of the enabled STEP (R11, R37). -/
theorem TurnEffect.byteAt_of_ne {a : Nat} (h : TurnEffect s u t) (hne : t.byteAt a ≠ s.byteAt a) :
    (∃ (b : DataAddr) (v : Byte), u = .ldd b v ∧ a = b.toNat ∧ t.byteAt a = v ∧ s.ph ≠ phBusy) ∨
    (∃ f : Syn, u = .block ∧ s.ph = phBusy ∧ fetchAction s = some (.datafix f) ∧
      a = dataAddress s.sp.toNat (datafixOffset config f)) := by
  cases h with
  | dataWrite b v hopen =>
    have hbyte : (s.setData (s.data.write b.toNat v)).byteAt a = if a = b.toNat then v else s.byteAt a :=
      Memory.byteAt_write ..
    by_cases ha : a = b.toNat
    · exact .inl ⟨b, v, rfl, ha, hbyte.trans (if_pos ha), ne_phBusy_of_open hopen⟩
    · exact absurd (hbyte.trans (if_neg ha)) hne
  | stepped i hi =>
    obtain ⟨f, hk, ha⟩ := afterAction_byteAt_of_ne (by simpa using hne)
    exact .inr ⟨f, rfl, (stepSubPage_eq_some.1 hi).1, fetchAction_of_classAt hi hk, ha⟩
  | _ => exact absurd rfl hne

/-- Settles O41: the effects on DATA are the host's write and the DATAFIX of a STEP. -/
theorem dataChangesOnlyByDatafixOrHostWrite : Obligations.DataChangesOnlyByDatafixOrHostWrite := by
  unfold Obligations.DataChangesOnlyByDatafixOrHostWrite
  intro s t a h hne
  exact (step_next h).byteAt_of_ne hne

/-- The phase changes by an accepted CORRECT, by FINISH and by RESET (R19). -/
theorem TurnEffect.ph_of_ne (h : TurnEffect s u t) (hne : t.ph ≠ s.ph) :
    (u = .cmd cmdCorrect ∧ (s.ph = phIdle ∨ s.ph = phDone) ∧ t.ph = phBusy) ∨
    (u = .block ∧ s.ph = phBusy ∧ s.sp = 4#3 ∧ t.ph = phDone) ∨ (u = .cmd cmdReset ∧ t.ph = phIdle) := by
  cases h with
  | accepted hopen => exact .inl ⟨rfl, hopen, rfl⟩
  | finished hph hsp => exact .inr (.inl ⟨rfl, hph, hsp, rfl⟩)
  | reset => exact .inr (.inr ⟨rfl, rfl⟩)
  | stepped => exact absurd (by simp) hne
  | _ => exact absurd rfl hne

/-- Settles O42: the effects on PH are an accepted CORRECT, FINISH and RESET. -/
theorem phaseChangesOnlyAsListed : Obligations.PhaseChangesOnlyAsListed := by
  unfold Obligations.PhaseChangesOnlyAsListed
  intro s t h hne
  exact (step_next h).ph_of_ne hne

/-- Settles O43: CORRECT and RESET clear SP and the counts, a STEP advances SP and counts by its class, and every other
effect keeps the three. -/
theorem pointerAndCountsChangeOnlyAsListed : Obligations.PointerAndCountsChangeOnlyAsListed := by
  unfold Obligations.PointerAndCountsChangeOnlyAsListed
  intro s t h
  have heffect := step_next h
  generalize s.nextTurn = u at heffect
  cases heffect with
  | accepted hopen => exact .inl ⟨.inl ⟨rfl, ne_phBusy_of_open hopen⟩, rfl, rfl, rfl⟩
  | reset => exact .inl ⟨.inr rfl, rfl, rfl, rfl⟩
  | stepped i hi =>
    refine .inr (.inl ⟨(s.classAt i).toInstr, rfl, fetchAction_of_classAt hi rfl, by simp, ?_⟩)
    have hclass : (s.setSchedule s.restOfSchedule).classAt i = s.classAt i := rfl
    rw [State.advanceSp_ncorr, State.advanceSp_nunc, afterAction_ncorr, afterAction_nunc, hclass]
    cases s.classAt i <;> exact ⟨rfl, rfl⟩
  | _ => exact .inr (.inr ⟨rfl, rfl, rfl⟩)

/-- LOG is kept, or FINISH appends its records (R20, R89). -/
theorem TurnEffect.log_cases (h : TurnEffect s u t) :
    t.log = s.log ∨
    (u = .block ∧ s.ph = phBusy ∧ s.sp = 4#3 ∧ t.log = s.log ++ logRecords s.ncorr s.nunc) := by
  cases h with
  | finished hph hsp => exact .inr ⟨rfl, hph, hsp, rfl⟩
  | stepped => exact .inl (by simp)
  | _ => exact .inl rfl

/-- Settles O44: FINISH is the only effect on LOG, and its records are none where both counts are zero. -/
theorem logGrowsOnlyAtFinish : Obligations.LogGrowsOnlyAtFinish := by
  unfold Obligations.LogGrowsOnlyAtFinish
  intro s t h
  obtain hkept | ⟨hu, hph, hsp, hlog⟩ := (step_next h).log_cases
  · exact .inl hkept
  · rw [State.setSchedule_ncorr, State.setSchedule_nunc, State.setSchedule_log, logRecords] at hlog
    by_cases hcounts : s.ncorr ≠ 0#3 ∨ s.nunc ≠ 0#3
    · rw [if_pos hcounts] at hlog
      exact .inr ⟨hu, hph, hsp, hcounts, hlog⟩
    · rw [if_neg hcounts, List.append_nil] at hlog
      exact .inl hlog

/-- The action of a pair changes DATA by DATA and SP alone (R22). -/
theorem afterAction_data_congr (k : SubClass) (hdata : t.data = s.data) (hsp : t.sp = s.sp) :
    (afterAction k t).data = (afterAction k s).data := by
  cases k with
  | datafix f =>
    simp only [afterAction, State.countCorrected_data, State.setData_data, flippedData, State.byteAt, hdata, hsp]
  | _ => exact hdata

/-- NCORR after an action is increased by what its class corrects (R16). -/
theorem afterAction_ncorr_eq_add (k : SubClass) (s : State) :
    (afterAction k s).ncorr = s.ncorr + BitVec.ofNat 3 k.corrects := by
  cases k <;> simp [afterAction_ncorr, SubClass.corrects]

/-- NUNC after an action is increased by what its class fails (R17). -/
theorem afterAction_nunc_eq_add (k : SubClass) (s : State) :
    (afterAction k s).nunc = s.nunc + BitVec.ofNat 3 k.fails := by
  cases k <;> simp [afterAction_nunc, SubClass.fails]

/-- What an action adds to NCORR depends on its class alone (R22). -/
theorem afterAction_ncorr_sub (k : SubClass) (s : State) :
    (afterAction k s).ncorr - s.ncorr = BitVec.ofNat 3 k.corrects := by
  rw [afterAction_ncorr_eq_add, BitVec.add_comm, BitVec.add_sub_cancel]

/-- What an action adds to NUNC depends on its class alone (R22). -/
theorem afterAction_nunc_sub (k : SubClass) (s : State) :
    (afterAction k s).nunc - s.nunc = BitVec.ofNat 3 k.fails := by
  rw [afterAction_nunc_eq_add, BitVec.add_comm, BitVec.add_sub_cancel]

/-- Settles O45: states that agree on STORED, COMPUTED, SP and PH perform the action of the same class. -/
theorem stepIsBlindToCountsOutcomeAndLog : Obligations.StepIsBlindToCountsOutcomeAndLog := by
  unfold Obligations.StepIsBlindToCountsOutcomeAndLog
  intro s s' hdata hstored hcomputed hsp hph hbusy hlt
  have hi : stepSubPage s = some ⟨s.sp.toNat, hlt⟩ := stepSubPage_eq_some.2 ⟨hbusy, rfl⟩
  have hi' : stepSubPage s' = some ⟨s.sp.toNat, hlt⟩ := stepSubPage_eq_some.2 ⟨hph ▸ hbusy, by rw [hsp]⟩
  have hclass : s'.classAt ⟨s.sp.toNat, hlt⟩ = s.classAt ⟨s.sp.toNat, hlt⟩ := by
    simp only [State.classAt, State.storedAt, State.computedAt, hstored, hcomputed]
  refine ⟨_, _, execStep_eq hi, execStep_eq hi', ?_⟩
  rw [hclass]
  exact ⟨afterAction_data_congr _ hdata hsp, by simp [hstored], by simp [hcomputed], by simp [hsp], by simp [hph],
    (afterAction_ncorr_sub ..).trans (afterAction_ncorr_sub ..).symm,
    (afterAction_nunc_sub ..).trans (afterAction_nunc_sub ..).symm⟩

/-- What an action adds to the two counts: nothing, or one to one of them (R81). -/
theorem afterAction_counts (k : SubClass) (s : State) :
    ((afterAction k s).ncorr = s.ncorr ∧ (afterAction k s).nunc = s.nunc) ∨
    ((afterAction k s).ncorr = s.ncorr + 1#3 ∧ (afterAction k s).nunc = s.nunc) ∨
    ((afterAction k s).ncorr = s.ncorr ∧ (afterAction k s).nunc = s.nunc + 1#3) := by
  rw [afterAction_ncorr, afterAction_nunc]
  cases k with
  | skip | clean => exact .inl ⟨rfl, rfl⟩
  | eccfix | datafix => exact .inr (.inl ⟨rfl, rfl⟩)
  | uncorr => exact .inr (.inr ⟨rfl, rfl⟩)

/-- The five actions are the actions of the five classes (R57, R75). -/
theorem exists_toInstr_eq {i : Instr}
    (hi : i = .skip ∨ i = .clean ∨ (∃ k, i = .eccfix k) ∨ (∃ f, i = .datafix f) ∨ (∃ f, i = .uncorr f)) :
    ∃ k : SubClass, k.toInstr = i := by
  rcases hi with rfl | rfl | ⟨b, rfl⟩ | ⟨f, rfl⟩ | ⟨f, rfl⟩
  · exact ⟨.skip, rfl⟩
  · exact ⟨.clean, rfl⟩
  · exact ⟨.eccfix b, rfl⟩
  · exact ⟨.datafix f, rfl⟩
  · exact ⟨.uncorr f, rfl⟩

/-- Settles O25: an action that answers a next state leaves `afterAction`, whose one byte, if any, is a DATAFIX's. -/
theorem actionFrame : Obligations.ActionFrame := by
  unfold Obligations.ActionFrame
  intro i s t hi h
  obtain ⟨k, rfl⟩ := exists_toInstr_eq hi
  rw [exec_toInstr] at h
  obtain rfl := performAction_next h
  refine ⟨afterAction_counts k s, fun f hf a ha => ?otherBytes, fun f _ => dataAddress_bounds _ _,
    fun hf a => ?noByte, by simp⟩
  case otherBytes =>
    by_contra hne
    obtain ⟨g, rfl, hg⟩ := afterAction_byteAt_of_ne hne
    cases hf
    exact ha hg
  case noByte =>
    by_contra hne
    obtain ⟨g, rfl, -⟩ := afterAction_byteAt_of_ne hne
    exact hf g rfl

end Sys2Proof.Machine
end

section
/-! The host's turns by phase (R37, R65, R87): which complete, with what state, and which are refused. -/

namespace Sys2Proof.Machine

variable {s : State}

/-- In IDLE and DONE the buffers are open (R37). -/
theorem whenBuffersOpen_of_open (h : s.ph = phIdle ∨ s.ph = phDone) (o : Host.Outcome State Fault Refusal) :
    whenBuffersOpen s o = o :=
  if_pos h

/-- In BUSY the buffers are closed (R37). -/
theorem whenBuffersOpen_of_busy (h : s.ph = phBusy) (o : Host.Outcome State Fault Refusal) :
    whenBuffersOpen s o = .refused .hostAccessWhileBusy := by
  have hclosed : ¬(s.ph = phIdle ∨ s.ph = phDone) := by simp [h]
  rw [whenBuffersOpen, if_neg hclosed, if_pos h]

/-- The host's write of a byte, where the buffers are open. -/
theorem takeTurn_ldd (h : s.ph = phIdle ∨ s.ph = phDone) (a : DataAddr) (v : Byte) :
    takeTurn (.ldd a v) s = .next (s.setData (s.data.write a.toNat v)) := by
  rw [takeTurn, hostWriteData, whenBuffersOpen_of_open h, memWrite_dataAddr]

/-- The host's write of a stored word, where the buffers are open. -/
theorem takeTurn_lds (h : s.ph = phIdle ∨ s.ph = phDone) (i : SubIndex) (w : Word) :
    takeTurn (.lds i w) s = .next (s.setStored i w) :=
  whenBuffersOpen_of_open h _

/-- The host's write of a computed word, where the buffers are open. -/
theorem takeTurn_ldc (h : s.ph = phIdle ∨ s.ph = phDone) (i : SubIndex) (w : Word) :
    takeTurn (.ldc i w) s = .next (s.setComputed i w) :=
  whenBuffersOpen_of_open h _

/-- The host's read of a byte, where the buffers are open. -/
theorem takeTurn_rdd (h : s.ph = phIdle ∨ s.ph = phDone) (a : DataAddr) :
    takeTurn (.rdd a) s = .next (s.recordRead (.dataByte a (s.byteAt a.toNat))) := by
  rw [takeTurn, hostReadData, whenBuffersOpen_of_open h, memRead_dataAddr]

/-- The host's read of a stored word, where the buffers are open. -/
theorem takeTurn_rds (h : s.ph = phIdle ∨ s.ph = phDone) (i : SubIndex) :
    takeTurn (.rds i) s = .next (s.recordRead (.storedWord i (s.storedAt i))) :=
  whenBuffersOpen_of_open h _

/-- The host's read of a computed word, where the buffers are open. -/
theorem takeTurn_rdc (h : s.ph = phIdle ∨ s.ph = phDone) (i : SubIndex) :
    takeTurn (.rdc i) s = .next (s.recordRead (.computedWord i (s.computedAt i))) :=
  whenBuffersOpen_of_open h _

/-- Every host access to the buffers is refused in BUSY (R37). -/
theorem takeTurn_refused_of_busy {u : Turn} (h : s.ph = phBusy) (hu : u.touchesBuffers = true) :
    takeTurn u s = .refused .hostAccessWhileBusy := by
  cases u with
  | ldd | lds | ldc | rdd | rds | rdc => exact whenBuffersOpen_of_busy h _
  | cmd | rdr | rdsp | block => cases hu

/-- The host's read of SP in DONE (R87). -/
theorem takeTurn_rdsp (h : s.ph = phDone) : takeTurn .rdsp s = .next (s.recordRead (.pointer s.sp)) :=
  if_pos h

/-- The host's read of SP outside DONE (log entry 23). -/
theorem takeTurn_rdsp_refused (h : s.ph ≠ phDone) : takeTurn .rdsp s = .refused .pointerReadOutsideDone :=
  if_neg h

/-- Outside BUSY the block stands still (R70, R87). -/
theorem takeTurn_block_of_not_busy (h : s.ph ≠ phBusy) : takeTurn .block s = .next s :=
  blockTurn_none (enabledTransition_eq_none_of_not_busy h)

/-- Settles O33: each access by its equation for open buffers, and one refusal for all of them in BUSY. -/
theorem hostAccessFollowsThePhaseTable : Obligations.HostAccessFollowsThePhaseTable := by
  unfold Obligations.HostAccessFollowsThePhaseTable
  refine ⟨fun s h => ⟨fun a v => ⟨_, takeTurn_ldd h a v, ?_, fun b hb => ?_, rfl⟩, takeTurn_lds h, takeTurn_ldc h,
    takeTurn_rdd h, takeTurn_rds h, takeTurn_rdc h, takeTurn_block_of_not_busy (ne_phBusy_of_open h)⟩,
    fun s u => takeTurn_refused_of_busy, fun s => rfl⟩
  · rw [State.setData_byteAt, Memory.byteAt_write, if_pos rfl]
  · rw [State.setData_byteAt, Memory.byteAt_write, if_neg hb]
    rfl

/-- Settles O60: FINISH leaves DONE with SP as it was, and it is enabled with SP = 4 alone. -/
theorem hostReadsThePointerInDone : Obligations.HostReadsThePointerInDone := by
  unfold Obligations.HostReadsThePointerInDone
  refine ⟨fun s => takeTurn_rdsp, fun s t h => ?_, fun s => takeTurn_rdsp_refused⟩
  obtain ⟨hf, rfl⟩ := execFinish_next h
  have hsp : (afterFinish s).sp = 4#3 := (finishEnabled_iff.1 hf).2
  have hread := takeTurn_rdsp (s := afterFinish s) rfl
  rw [hsp] at hread
  exact ⟨hread, rfl⟩

/-- The host's contract, clause by clause (R37, R63 (d), R87, R121). -/
theorem Turn.lawful_iff {u : Turn} :
    u.lawful s = true ↔
      u ≠ .cmd 3#2 ∧ (u.touchesBuffers = true → s.ph ≠ phBusy) ∧ (u = .rdsp → s.ph = phDone) := by
  simp [Turn.lawful, and_assoc, imp_iff_not_or]

/-- A command that is not the reserved code completes in each phase that is taken (R62, R67 to R69). -/
theorem takeTurn_cmd_completes (hphase : s.ph = phIdle ∨ s.ph = phBusy ∨ s.ph = phDone) {code : BitVec 2}
    (hcode : code ≠ 3#2) : ∃ t, takeTurn (.cmd code) s = .next t := by
  obtain ⟨rfl, -⟩ | ⟨rfl, -⟩ | ⟨rfl, -⟩ | ⟨rfl, -⟩ := decodeCmd_cases code
  · exact ⟨_, rfl⟩
  · rcases hphase with h | h | h
    · exact ⟨_, execCorrect_accepted (.inl h)⟩
    · exact ⟨_, execCorrect_dropped h⟩
    · exact ⟨_, execCorrect_accepted (.inr h)⟩
  · exact ⟨_, rfl⟩
  · exact absurd rfl hcode

/-- A lawful turn completes in each phase that is taken. -/
theorem takeTurn_completes {u : Turn} (hphase : s.ph = phIdle ∨ s.ph = phBusy ∨ s.ph = phDone)
    (hu : u.lawful s = true) : ∃ t, takeTurn u s = .next t := by
  obtain ⟨hcode, hbuffers, hpointer⟩ := Turn.lawful_iff.1 hu
  have hopen (h : u.touchesBuffers = true) : s.ph = phIdle ∨ s.ph = phDone :=
    hphase.imp_right (Or.resolve_left · (hbuffers h))
  cases u with
  | cmd code => exact takeTurn_cmd_completes hphase fun h => hcode (by rw [h])
  | ldd a v => exact ⟨_, takeTurn_ldd (hopen rfl) a v⟩
  | lds i w => exact ⟨_, takeTurn_lds (hopen rfl) i w⟩
  | ldc i w => exact ⟨_, takeTurn_ldc (hopen rfl) i w⟩
  | rdd a => exact ⟨_, takeTurn_rdd (hopen rfl) a⟩
  | rds i => exact ⟨_, takeTurn_rds (hopen rfl) i⟩
  | rdc i => exact ⟨_, takeTurn_rdc (hopen rfl) i⟩
  | rdr => exact ⟨_, rfl⟩
  | rdsp => exact ⟨_, takeTurn_rdsp (hpointer rfl)⟩
  | block => obtain ⟨i, -, h⟩ | ⟨-, -, h⟩ | ⟨-, h⟩ := blockTurn_cases s <;> exact ⟨_, h⟩

/-- An unlawful turn is refused, by the name of the clause it breaks. -/
theorem takeTurn_refused {u : Turn} (hu : u.lawful s = false) :
    takeTurn u s = .refused .reservedCommand ∨ takeTurn u s = .refused .hostAccessWhileBusy ∨
      takeTurn u s = .refused .pointerReadOutsideDone := by
  by_cases hcode : u = .cmd 3#2
  · exact .inl (by rw [hcode]; rfl)
  by_cases hbuffers : u.touchesBuffers = true → s.ph ≠ phBusy
  · by_cases hpointer : u = .rdsp → s.ph = phDone
    · rw [Turn.lawful_iff.2 ⟨hcode, hbuffers, hpointer⟩] at hu
      cases hu
    · obtain ⟨rfl, hph⟩ := Classical.not_imp.1 hpointer
      exact .inr (.inr (takeTurn_rdsp_refused hph))
  · obtain ⟨htouches, hph⟩ := Classical.not_imp.1 hbuffers
    exact .inr (.inl (takeTurn_refused_of_busy (not_not.1 hph) htouches))

/-- Settles O38: a step takes the next turn, whose lawfulness the schedule does not change. -/
theorem onlyUnlawfulTurnsStop : Obligations.OnlyUnlawfulTurnsStop := by
  unfold Obligations.OnlyUnlawfulTurnsStop
  intro s hs
  rw [step_eq]
  exact ⟨fun hu => takeTurn_completes hs.phase hu, fun hu => takeTurn_refused hu⟩

end Sys2Proof.Machine
end

section
/-! What a step runs (log entries 3 to 5 and 15): the presented command, the decoded action, FINISH, or nothing; and the
stops of the bare operations. -/

namespace Sys2Proof.Machine

variable {s : State}

/-- Settles O13: NOP is the identity. -/
theorem nopHasNoEffect : Obligations.NopHasNoEffect := by
  unfold Obligations.NopHasNoEffect
  exact ⟨by decide, fun _ => rfl⟩

/-- Settles O16: phase code 3 is neither IDLE nor DONE nor BUSY. -/
theorem correctInReservedPhaseIsRefused : Obligations.CorrectInReservedPhaseIsRefused := by
  unfold Obligations.CorrectInReservedPhaseIsRefused
  intro s h
  have hrefused : execCorrect s = .refused .reservedPhase := by
    rw [execCorrect, h, if_neg (by decide), if_neg (by decide)]
  exact hrefused

/-- Settles O18: the reserved command has no other meaning than its refusal. -/
theorem reservedCommandIsRefused : Obligations.ReservedCommandIsRefused := by
  unfold Obligations.ReservedCommandIsRefused
  exact ⟨by decide, fun _ => rfl⟩

/-- Settles O23: with SP of 4 or more the flip has no sub-page to act on. -/
theorem datafixOutsideTheSubPagesFaults : Obligations.DatafixOutsideTheSubPagesFaults := by
  unfold Obligations.DatafixOutsideTheSubPagesFaults
  intro f s hsp
  have hfault : execDatafix f s =
      .fault (.dataAddressOutOfRange (dataAddress s.sp.toNat (datafixOffset config f))) := by
    rw [execDatafix, flipDataBit_eq, if_neg (Nat.not_lt.2 hsp)]
  exact hfault

/-- STEP where it is not enabled is refused (log entry 5). -/
theorem execStep_refused (h : ¬(s.ph = phBusy ∧ s.sp.toNat < 4)) : execStep s = .refused .stepNotEnabled := by
  rw [execStep, stepSubPage_eq_none.2 h]

/-- FINISH where it is not enabled is refused (log entry 5). -/
theorem execFinish_refused (h : ¬(s.ph = phBusy ∧ s.sp = 4#3)) : execFinish s = .refused .finishNotEnabled :=
  if_neg (mt finishEnabled_iff.1 h)

/-- Settles O27: each of the two transitions tests its own enabling. -/
theorem disabledTransitionsAreRefused : Obligations.DisabledTransitionsAreRefused := by
  unfold Obligations.DisabledTransitionsAreRefused
  exact ⟨fun _ => execStep_refused, fun _ => execFinish_refused⟩

/-- Settles O29: the codes by evaluation, the fields of a record as the two halves of its word. -/
theorem resultCodes : Obligations.ResultCodes := by
  unfold Obligations.ResultCodes
  exact ⟨by decide, by decide, by decide, aggregate_ne_two,
    fun _ => ⟨BitVec.extractLsb'_append_eq_left, BitVec.extractLsb'_append_eq_right⟩⟩

/-- A step with a turn at the head of the schedule takes that turn. -/
theorem step_of_schedule {u : Turn} {rest : List Turn} (h : s.schedule = u :: rest) :
    step s = takeTurn u (s.setSchedule rest) := by
  rw [step_eq, State.nextTurn, State.restOfSchedule, h]
  rfl

/-- Settles O30: a command's turn is the execution of the command its code names. -/
theorem stepRunsThePresentedCommand : Obligations.StepRunsThePresentedCommand := by
  unfold Obligations.StepRunsThePresentedCommand
  intro s code rest h
  exact step_of_schedule h

/-- On the block's turn an enabled STEP runs the action the block fetches, then advances SP (R70). -/
theorem blockTurn_of_fetchAction {i : Instr} (h : fetchAction s = some i) :
    blockTurn s = onNext (exec i s) State.advanceSp := by
  obtain ⟨j, hj, rfl⟩ := Option.map_eq_some_iff.1 h
  have hlt : s.sp.toNat < 4 := (stepSubPage_eq_some.1 hj).2 ▸ j.isLt
  rw [blockTurn_step hj, exec_decodePair j hlt]
  rfl

/-- On the block's turn with SP = 4 in BUSY the block runs FINISH (R87). -/
theorem blockTurn_eq_exec_finish (hph : s.ph = phBusy) (hsp : s.sp = 4#3) : blockTurn s = exec .finish s := by
  rw [blockTurn, enabledTransition_eq_finish.2 ⟨hph, hsp⟩]

/-- Settles O31: the three cases of the block's turn, on the state without the turn's entry. -/
theorem stepRunsTheDecodedAction : Obligations.StepRunsTheDecodedAction := by
  unfold Obligations.StepRunsTheDecodedAction
  intro s hblock
  rw [step_eq, hblock]
  exact ⟨fun i hi => blockTurn_of_fetchAction hi, fun hph hsp => blockTurn_eq_exec_finish hph hsp,
    fun hnone => blockTurn_none hnone⟩

/-- A command's table word decodes to the command of its two bits (R62; log entry 15). -/
theorem decodeTableWord_cmd : ∀ w < 4, decodeTableWord 8 w = some (decodeCmd (BitVec.ofNat 2 w)) := by
  decide

/-- A 32-bit table word decodes as the pair of itself and the word above it (log entry 15). -/
theorem decodeTableWord_pair (w : Nat) :
    decodeTableWord 32 w = some (decodePair (BitVec.ofNat 32 w) (BitVec.ofNat 32 (w / 2 ^ 32))) :=
  congrArg Except.toOption (decode_eccBytesOf (BitVec.ofNat 32 w) (BitVec.ofNat 32 (w / 2 ^ 32)))

/-- Where a pair is placed, STEP is enabled next (log entry 4). -/
theorem stepSubPage_placePair (w c : Word) (s : State) : stepSubPage (placePair w c s) = some (placeIndex s) := by
  have hsp : (BitVec.ofNat 3 (placeIndex s).val).toNat = (placeIndex s).val :=
    Nat.mod_eq_of_lt (Nat.lt_of_lt_of_le (placeIndex s).isLt (by decide))
  exact stepSubPage_eq_some.2 ⟨rfl, hsp⟩

/-- A placed pair is what the block fetches (log entry 4). -/
theorem fetchAction_placePair (w c : Word) (s : State) : fetchAction (placePair w c s) = some (decodePair w c) := by
  rw [fetchAction, stepSubPage_placePair, Option.map_some]
  simp [placePair, State.setComputed_computedAt, State.setStored_storedAt]

/-- A step of a state in which a pair is placed runs the action it selects. -/
theorem step_placePair (w c : Word) (s : State) :
    step (placePair w c s) =
      onNext (exec (decodePair w c) ((placePair w c s).setSchedule s.schedule)) State.advanceSp :=
  calc step (placePair w c s)
    _ = blockTurn ((placePair w c s).setSchedule s.schedule) := step_of_schedule (s := placePair w c s) rfl
    _ = onNext (exec (decodePair w c) ((placePair w c s).setSchedule s.schedule)) State.advanceSp :=
      blockTurn_of_fetchAction (fetchAction_placePair w c s)

/-- A step of a state in which a command is placed executes it. -/
theorem step_placeCommand (code : BitVec 2) (s : State) : step (placeCommand code s) = exec (decodeCmd code) s :=
  step_of_schedule (s := placeCommand code s) rfl

/-- Settles O32: a command's word is placed as the next turn, a syndrome's word as the pair of the sub-page STEP
processes next. -/
theorem placedWordRunsNext : Obligations.PlacedWordRunsNext := by
  unfold Obligations.PlacedWordRunsNext
  refine ⟨fun s w hw => ⟨_, decodeTableWord_cmd w hw, step_placeCommand _ s⟩, fun s w hw => ?_⟩
  exact ⟨_, decodeTableWord_pair w, fetchAction_placePair _ _ s, step_placePair _ _ s⟩

end Sys2Proof.Machine
end

section
/-! The fields of the syndrome (R44 to R56): the halves, the validity test, the unused bits, and the bit address. -/

namespace Sys2Proof.Machine

/-- A bit of the even half, in its low or its high field. -/
theorem evenOf_getLsbD (w : Word) (k : Nat) :
    (evenOf config w).getLsbD k =
      if k < 8 then (w.extractLsb' 24 8).getLsbD k else (w.extractLsb' 16 4).getLsbD (k - 8) :=
  BitVec.getLsbD_append

/-- A bit of the odd half, in its low or its high field. -/
theorem oddOf_getLsbD (w : Word) (k : Nat) :
    (oddOf config w).getLsbD k =
      if k < 8 then (w.extractLsb' 8 8).getLsbD k else (w.extractLsb' 0 4).getLsbD (k - 8) :=
  BitVec.getLsbD_append

/-- Settles O6: bit `k` of a half is a bit of its low field below 8 and of its high field from 8 on. -/
theorem splitTakesTheNamedBits : Obligations.SplitTakesTheNamedBits := by
  unfold Obligations.SplitTakesTheNamedBits
  intro w
  refine ⟨fun k hk => ?low, fun k hk => ?high, validSignature_iff⟩
  case low => simp [evenOf_getLsbD, oddOf_getLsbD, hk]
  case high => simp [evenOf_getLsbD, oddOf_getLsbD, hk]

/-- Two words of two fields each are complementary where the fields are. -/
theorem append_xor_append_eq_allOnes {m n : Nat} (x y : BitVec m) (u v : BitVec n) :
    (x ++ u) ^^^ (y ++ v) = BitVec.allOnes m ++ BitVec.allOnes n ↔
      u ^^^ v = BitVec.allOnes n ∧ x ^^^ y = BitVec.allOnes m := by
  rw [BitVec.xor_append]
  refine ⟨fun h => ⟨?_, ?_⟩, fun ⟨hlow, hhigh⟩ => by rw [hlow, hhigh]⟩
  · simpa only [BitVec.extractLsb'_append_eq_right] using congrArg (BitVec.extractLsb' 0 n) h
  · simpa only [BitVec.extractLsb'_append_eq_left] using congrArg (BitVec.extractLsb' n m) h

/-- The validity test by fields: EL and OL, and EH and OH, are complementary (R48, R49). -/
theorem validSignature_config_iff {w : Word} :
    validSignature config w = true ↔
      w.extractLsb' 24 8 ^^^ w.extractLsb' 8 8 = 0xFF#8 ∧ w.extractLsb' 16 4 ^^^ w.extractLsb' 0 4 = 0xF#4 :=
  validSignature_iff.trans (append_xor_append_eq_allOnes (w.extractLsb' 16 4) (w.extractLsb' 0 4) _ _)

/-- Settles O7: the 12-bit comparison is one of the fields that make up the halves. -/
theorem validityTestIsFieldwiseComplement : Obligations.ValidityTestIsFieldwiseComplement := by
  unfold Obligations.ValidityTestIsFieldwiseComplement
  exact fun _ => validSignature_config_iff

/-- The used bits are all of a syndrome but the fields U1 and U0 (R46, R54). -/
theorem ofWord_and_used (w : Word) :
    Syn.ofWord (w &&& 0xFF0FFF0F#32) = { Syn.ofWord w with u1 := 0, u0 := 0 } := by
  have hel : (0xFF0FFF0F#32).extractLsb' 24 8 = BitVec.allOnes 8 := by decide
  have hu1 : (0xFF0FFF0F#32).extractLsb' 20 4 = 0#4 := by decide
  have heh : (0xFF0FFF0F#32).extractLsb' 16 4 = BitVec.allOnes 4 := by decide
  have hol : (0xFF0FFF0F#32).extractLsb' 8 8 = BitVec.allOnes 8 := by decide
  have hu0 : (0xFF0FFF0F#32).extractLsb' 4 4 = 0#4 := by decide
  have hoh : (0xFF0FFF0F#32).extractLsb' 0 4 = BitVec.allOnes 4 := by decide
  simp only [Syn.ofWord, BitVec.extractLsb'_and, hel, hu1, heh, hol, hu0, hoh, BitVec.and_allOnes, BitVec.and_zero]
  rfl

/-- The halves are read off the used bits alone (R54). -/
theorem splitDefault_and_used (w : Word) : splitDefault (w &&& 0xFF0FFF0F#32) = splitDefault w := by
  simp only [splitDefault, ofWord_and_used]

/-- Words that agree in the used bits have the same halves (R54). -/
theorem split_congr {v w : Word} (h : v &&& 0xFF0FFF0F#32 = w &&& 0xFF0FFF0F#32) : config.split v = config.split w :=
  calc splitDefault v
    _ = splitDefault (v &&& 0xFF0FFF0F#32) := (splitDefault_and_used v).symm
    _ = splitDefault (w &&& 0xFF0FFF0F#32) := by rw [h]
    _ = splitDefault w := splitDefault_and_used w

/-- The odd half is a component of `Split`. -/
theorem oddOf_congr {v w : Word} (h : config.split v = config.split w) : oddOf config v = oddOf config w :=
  congrArg Prod.snd h

/-- The validity test reads the halves alone (R48). -/
theorem validSignature_congr {v w : Word} (h : config.split v = config.split w) :
    validSignature config v = validSignature config w := by
  simp only [validSignature, evenOf, oddOf, h]

/-- A mask distributes over exclusive or. -/
theorem xor_and_distrib_right {n : Nat} (x y z : BitVec n) : (x ^^^ y) &&& z = (x &&& z) ^^^ (y &&& z) := by
  apply BitVec.eq_of_getLsbD_eq
  intro k _
  simp only [BitVec.getLsbD_and, BitVec.getLsbD_xor, Bool.and_xor_distrib_right]

/-- Settles O10: flipping unused bits keeps the used ones. -/
theorem unusedBitsDoNotChangeTheHalves : Obligations.UnusedBitsDoNotChangeTheHalves := by
  unfold Obligations.UnusedBitsDoNotChangeTheHalves
  intro w u hu
  have hsplit : config.split (w ^^^ u) = config.split w := split_congr (by
    rw [xor_and_distrib_right, hu, BitVec.xor_zero])
  exact ⟨hsplit, validSignature_congr hsplit⟩

/-- `Split` of the syndrome of a bit address (R55). -/
theorem split_synOf (a : Half) : config.split (synOf a) = (~~~a, a) := by
  have happend (x : Half) : x.extractLsb' 8 4 ++ x.extractLsb' 0 8 = x := by
    rw [BitVec.extractLsb'_append_extractLsb'_eq_extractLsb' (by decide)]
    exact BitVec.extractLsb'_eq_self
  have hnot : ~~~(a.extractLsb' 8 4) ++ ~~~(a.extractLsb' 0 8) = ~~~a := by
    rw [← BitVec.not_append, happend]
  simp only [config, splitDefault, synOf, Syn.ofWord_word, happend, hnot]

/-- Complementary words, and no others, have every bit in their exclusive or. -/
theorem xor_eq_allOnes_iff {n : Nat} {x y : BitVec n} : x ^^^ y = BitVec.allOnes n ↔ x = ~~~y := by
  rw [← BitVec.xor_allOnes]
  constructor
  · intro h
    rw [← h, BitVec.xor_comm x y, ← BitVec.xor_assoc, BitVec.xor_self, BitVec.zero_xor]
  · rintro rfl
    rw [BitVec.xor_comm y, BitVec.xor_assoc, BitVec.xor_self, BitVec.xor_zero]

/-- The validity test by fields: EL and EH are the complements of OL and OH (R48, R49). -/
theorem validSignature_config_iff_not {w : Word} :
    validSignature config w = true ↔
      w.extractLsb' 24 8 = ~~~(w.extractLsb' 8 8) ∧ w.extractLsb' 16 4 = ~~~(w.extractLsb' 0 4) :=
  validSignature_config_iff.trans (and_congr xor_eq_allOnes_iff xor_eq_allOnes_iff)

/-- The syndrome of a bit address is a valid signature (R55). -/
theorem validSignature_synOf (a : Half) : validSignature config (synOf a) = true := by
  rw [validSignature_iff, evenOf, oddOf, split_synOf]
  exact xor_eq_allOnes_iff.2 rfl

/-- The odd half of the syndrome of a bit address is the address (R55). -/
theorem oddOf_synOf (a : Half) : oddOf config (synOf a) = a := by
  rw [oddOf, split_synOf]

/-- A valid signature is, in the used bits, the syndrome of its odd half (R55). -/
theorem and_used_eq_synOf {w : Word} (h : validSignature config w = true) :
    w &&& 0xFF0FFF0F#32 = synOf (oddOf config w) := by
  obtain ⟨hel, heh⟩ := validSignature_config_iff_not.1 h
  have hol : (oddOf config w).extractLsb' 0 8 = w.extractLsb' 8 8 := BitVec.extractLsb'_append_eq_right
  have hoh : (oddOf config w).extractLsb' 8 4 = w.extractLsb' 0 4 := BitVec.extractLsb'_append_eq_left
  rw [← Syn.word_ofWord (w &&& 0xFF0FFF0F#32), ofWord_and_used, synOf, hol, hoh, ← hel, ← heh]
  rfl

/-- Settles O9: unused bits do not change the halves, and a valid signature is its used bits and its unused ones. -/
theorem synOfGivesEveryValidSyndrome : Obligations.SynOfGivesEveryValidSyndrome := by
  unfold Obligations.SynOfGivesEveryValidSyndrome
  refine ⟨split_synOf, fun a u hu => ?valid, fun w hw => ?form⟩
  case valid =>
    have hsplit : config.split (synOf a ||| u) = config.split (synOf a) := split_congr (by
      rw [BitVec.and_or_distrib_right, hu, BitVec.or_zero])
    exact ⟨(validSignature_congr hsplit).trans (validSignature_synOf a), (oddOf_congr hsplit).trans (oddOf_synOf a)⟩
  case form =>
    refine ⟨w &&& 0x00F000F0#32, ?_, ?_⟩
    · have hdisjoint : 0x00F000F0#32 &&& 0xFF0FFF0F#32 = 0#32 := by decide
      rw [BitVec.and_assoc, hdisjoint, BitVec.and_zero]
    · have hcover : 0xFF0FFF0F#32 ||| 0x00F000F0#32 = BitVec.allOnes 32 := by decide
      rw [← and_used_eq_synOf hw, ← BitVec.and_or_distrib_left, hcover, BitVec.and_allOnes]

/-- With OFFSET_BITS = 12 the offset is all of `odd` (R50). -/
theorem offsetOf_config (a : Half) : offsetOf config a = a := by
  simp [offsetOf, config]

/-- With OFFSET_BITS = 9 the offset is `odd` modulo 512 (R56). -/
theorem offsetOf_literalNine_toNat (a : Half) : (offsetOf literalNine a).toNat = a.toNat % 512 := by
  have hlt : a.toNat % 512 < 4096 := by omega
  simpa [offsetOf, literalNine] using hlt

/-- A bit address is its byte index and its bit in the byte (R50). -/
theorem toNat_eq_byteIndex_bitInByte (a : Half) : a.toNat = 8 * byteIndex a + bitInByte a := by
  rw [byteIndex_eq, bitInByte_eq]
  exact (Nat.div_add_mod a.toNat 8).symm

/-- Settles O11: a bit address is eight times its byte index and its bit index, so the two determine it. -/
theorem everyBitOfASubPageHasOneAddress : Obligations.EveryBitOfASubPageHasOneAddress := by
  unfold Obligations.EveryBitOfASubPageHasOneAddress
  refine ⟨fun a => ⟨offsetOf_config a, ?byteField, ?bitField, byteIndex_lt a, bitInByte_lt a⟩,
    fun byte bit hbyte hbit => ?unique, fun i off => ⟨rfl, dataAddress_bounds i.val off⟩⟩
  case byteField =>
    have hlt : a.toNat / 8 < 2 ^ 9 := by omega
    rw [byteIndex_eq, BitVec.extractLsb'_toNat, Nat.shiftRight_eq_div_pow, Nat.mod_eq_of_lt hlt]
  case bitField =>
    rw [bitInByte_eq, BitVec.extractLsb'_toNat]
    rfl
  case unique =>
    have haddr : (BitVec.ofNat 12 (8 * byte + bit)).toNat = 8 * byte + bit := by
      rw [BitVec.toNat_ofNat]
      omega
    refine ⟨BitVec.ofNat 12 (8 * byte + bit), ⟨?_, ?_⟩, fun a ⟨ha, hb⟩ => BitVec.eq_of_toNat_eq ?_⟩
    · rw [byteIndex_eq, haddr]
      omega
    · rw [bitInByte_eq, haddr]
      omega
    · rw [toNat_eq_byteIndex_bitInByte, ha, hb, haddr]

/-- Settles O12: `odd` modulo 512 keeps the low nine bits, the bit in the byte among them. -/
theorem literalNineAgreesBelow512 : Obligations.LiteralNineAgreesBelow512 := by
  unfold Obligations.LiteralNineAgreesBelow512
  intro a
  have hoff := offsetOf_literalNine_toNat a
  refine ⟨hoff, ?_, ?_, ?_⟩
  · rw [byteIndex_eq, hoff]
    omega
  · rw [bitInByte_eq, bitInByte_eq, hoff]
    omega
  · rw [offsetOf_config, ← BitVec.toNat_inj, hoff]
    omega

end Sys2Proof.Machine
end

section
/-! How many syndromes each test admits (R53). -/

namespace Sys2Proof.Machine

/-- The bits of a concatenation are those of its parts. -/
theorem popcount_append {m n : Nat} (x : BitVec m) (y : BitVec n) : popcount (x ++ y) = popcount x + popcount y := by
  have hlow : (List.range n).countP (fun k => (x ++ y).getLsbD k) = popcount y :=
    List.countP_congr fun k hk => by rw [BitVec.getLsbD_append, if_pos (List.mem_range.1 hk)]
  have hhigh : (List.range m).countP (fun k => (x ++ y).getLsbD (n + k)) = popcount x :=
    List.countP_congr fun k _ => by
      rw [BitVec.getLsbD_append, if_neg (Nat.not_lt.2 (Nat.le_add_right n k)), Nat.add_sub_cancel_left]
  calc popcount (x ++ y)
    _ = (List.range (n + m)).countP (fun k => (x ++ y).getLsbD k) :=
      congrArg (fun len => (List.range len).countP (fun k => (x ++ y).getLsbD k)) (Nat.add_comm m n)
    _ = popcount y + popcount x := by
      rw [List.range_add, List.countP_append, List.countP_map, hlow, ← hhigh]
      rfl
    _ = popcount x + popcount y := Nat.add_comm ..

/-- A word has no more 1 bits than bits. -/
theorem popcount_le {n : Nat} (v : BitVec n) : popcount v ≤ n :=
  (List.countP_le_length ..).trans_eq List.length_range

/-- Each bit is 1 in a word or in its complement. -/
theorem popcount_not_add {n : Nat} (v : BitVec n) : popcount (~~~v) + popcount v = n := by
  have hnot : popcount (~~~v) = (List.range n).countP (fun k => ¬v.getLsbD k = true) :=
    List.countP_congr fun k hk => by simp [List.mem_range.1 hk]
  rw [hnot, Nat.add_comm]
  exact (List.length_eq_countP_add_countP _).symm.trans List.length_range

/-- A valid signature has one bit of each of its twelve complementary pairs, and its unused bits (R53). -/
theorem popcount_of_validSignature {w : Word} (h : validSignature config w = true) :
    popcount w = 12 + popcount (w.extractLsb' 20 4) + popcount (w.extractLsb' 4 4) := by
  obtain ⟨hel, heh⟩ := validSignature_config_iff_not.1 h
  have hbyte := popcount_not_add (w.extractLsb' 8 8)
  have hnibble := popcount_not_add (w.extractLsb' 0 4)
  have hfields : popcount w = popcount (Syn.ofWord w).word := by rw [Syn.word_ofWord]
  rw [Syn.word, Syn.ofWord] at hfields
  simp only [popcount_append] at hfields
  rw [hel, heh] at hfields
  omega

/-- A valid signature is past the zero test and the single-bit test (R53). -/
theorem tests_fail_of_validSignature {w : Word} (h : validSignature config w = true) :
    w ≠ 0#32 ∧ atMostOneBit w = false :=
  two_le_popcount.1 (by rw [popcount_of_validSignature h]; omega)

/-- There are as many values as a width has. -/
theorem card_bitVec (n : Nat) : Nat.card (BitVec n) = 2 ^ n :=
  (Nat.card_congr BitVec.equivFin.toEquiv).trans (Nat.card_fin _)

/-- The one-hot syndromes (R52). -/
def oneHotSyndromes : Set Word := { w | w ≠ 0#32 ∧ atMostOneBit w = true }

/-- The valid signatures (R48). -/
def validSyndromes : Set Word := { w | validSignature config w = true }

/-- The one-hot syndromes are the powers of two, each of one index. -/
theorem ncard_oneHotSyndromes : oneHotSyndromes.ncard = 32 := by
  have hrange : oneHotSyndromes = Set.range (fun k : Fin 32 => 1#32 <<< k.val) := by
    ext w
    constructor
    · rintro ⟨h0, h1⟩
      exact ⟨bitIndex w, (eq_shift_of_atMostOneBit h0 h1).symm⟩
    · rintro ⟨k, rfl⟩
      exact ⟨shift_ne_zero k, atMostOneBit_shift k⟩
  have hinj : Function.Injective (fun k : Fin 32 => 1#32 <<< k.val) :=
    Function.LeftInverse.injective (g := bitIndex) bitIndex_shift
  rw [hrange, ← Nat.card_coe_set_eq, Nat.card_range_of_injective hinj, Nat.card_fin]

/-- The valid signature with given fields OL, OH, U1 and U0: EL and EH are the complements (R49). -/
def validSyn (p : BitVec 8 × BitVec 4 × BitVec 4 × BitVec 4) : Syn :=
  { el := ~~~p.1, u1 := p.2.2.1, eh := ~~~p.2.1, ol := p.1, u0 := p.2.2.2, oh := p.2.1 }

/-- The four free fields can be read off a valid signature. -/
theorem validSyn_word_injective : Function.Injective (fun p => (validSyn p).word) := by
  intro p q h
  have hsyn : validSyn p = validSyn q := by simpa using congrArg Syn.ofWord h
  simp only [validSyn, Syn.mk.injEq] at hsyn
  obtain ⟨-, hu1, -, hol, hu0, hoh⟩ := hsyn
  exact Prod.ext hol (Prod.ext hoh (Prod.ext hu1 hu0))

/-- The valid signatures are the words made of four free fields (R49, R55). -/
theorem validSyndromes_eq_range : validSyndromes = Set.range (fun p => (validSyn p).word) := by
  ext w
  refine validSignature_config_iff_not.trans ⟨fun ⟨hel, heh⟩ => ?_, ?_⟩
  · have hsyn :
        validSyn (w.extractLsb' 8 8, w.extractLsb' 0 4, w.extractLsb' 20 4, w.extractLsb' 4 4) = Syn.ofWord w := by
      rw [validSyn, Syn.ofWord, hel, heh]
    exact ⟨_, (congrArg Syn.word hsyn).trans (Syn.word_ofWord w)⟩
  · rintro ⟨p, rfl⟩
    have hfields : Syn.ofWord (validSyn p).word = validSyn p := Syn.ofWord_word _
    have hel : (validSyn p).word.extractLsb' 24 8 = ~~~p.1 := congrArg Syn.el hfields
    have heh : (validSyn p).word.extractLsb' 16 4 = ~~~p.2.1 := congrArg Syn.eh hfields
    have hol : (validSyn p).word.extractLsb' 8 8 = p.1 := congrArg Syn.ol hfields
    have hoh : (validSyn p).word.extractLsb' 0 4 = p.2.1 := congrArg Syn.oh hfields
    exact ⟨hel.trans (by rw [hol]), heh.trans (by rw [hoh])⟩

/-- Twenty bits of a valid signature are free. -/
theorem ncard_validSyndromes : validSyndromes.ncard = 1048576 := by
  rw [validSyndromes_eq_range, ← Nat.card_coe_set_eq, Nat.card_range_of_injective validSyn_word_injective,
    Nat.card_prod, Nat.card_prod, Nat.card_prod, card_bitVec, card_bitVec]
  norm_num

/-- The syndromes that are neither zero nor one-hot nor valid (R53). -/
def otherSyndromes : Set Word :=
  { w | w ≠ 0#32 ∧ atMostOneBit w = false ∧ validSignature config w = false }

/-- The other syndromes are what the three tests leave. -/
theorem otherSyndromes_eq_compl : otherSyndromes = (insert 0#32 (oneHotSyndromes ∪ validSyndromes))ᶜ := by
  ext w
  simp only [otherSyndromes, oneHotSyndromes, validSyndromes, Set.mem_ofPred_eq, Set.mem_compl_iff, Set.mem_insert_iff,
    Set.mem_union, Bool.eq_false_iff]
  tauto

/-- The zero test, the single-bit test on the rest and the validity test exclude one another, so the syndromes they
leave are counted by subtraction (R53). -/
theorem ncard_otherSyndromes : otherSyndromes.ncard = 4293918687 := by
  have hdisjoint : Disjoint oneHotSyndromes validSyndromes := by
    rw [Set.disjoint_left]
    rintro w ⟨-, h1⟩ hv
    simp [(tests_fail_of_validSignature hv).2] at h1
  have hzero : 0#32 ∉ oneHotSyndromes ∪ validSyndromes := by
    rintro (⟨h0, -⟩ | hv)
    · exact h0 rfl
    · exact (tests_fail_of_validSignature hv).1 rfl
  have htests : (insert 0#32 (oneHotSyndromes ∪ validSyndromes)).ncard = 1048609 := by
    rw [Set.ncard_insert_of_notMem hzero, Set.ncard_union_eq hdisjoint, ncard_oneHotSyndromes, ncard_validSyndromes]
  have htotal := Set.ncard_add_ncard_compl (insert 0#32 (oneHotSyndromes ∪ validSyndromes))
  rw [htests, card_bitVec] at htotal
  rw [otherSyndromes_eq_compl]
  omega

/-- Settles O8: the bounds by the twelve complementary pairs, the numbers by counting the free fields. -/
theorem syndromeCountsOfEachTest : Obligations.SyndromeCountsOfEachTest := by
  unfold Obligations.SyndromeCountsOfEachTest
  refine ⟨fun w hw => ?_, ncard_oneHotSyndromes, ncard_validSyndromes, ncard_otherSyndromes⟩
  have hpop := popcount_of_validSignature hw
  have hu1 := popcount_le (w.extractLsb' 20 4)
  have hu0 := popcount_le (w.extractLsb' 4 4)
  exact ⟨by omega, by omega, tests_fail_of_validSignature hw⟩

end Sys2Proof.Machine
end

section
/-! The whole-page function, sub-page by sub-page (R72, R86, R90): the counts as sums over the sub-pages, the outcome,
and the independence of the order. -/

namespace Sys2Proof

/-- A sub-page is counted at most once (R81). -/
theorem SubClass.corrects_add_fails_le (k : SubClass) : k.corrects + k.fails ≤ 1 := by
  cases k <;> simp [SubClass.corrects, SubClass.fails]

end Sys2Proof

namespace Sys2Proof.Machine

variable {cfg : Config} {D E : Page} {S C S' C' : Vector Word 4}

/-- Two states of the loop with the same page and counts are the same. -/
theorem PageProgress.eq_of_fields {p q : PageProgress} (hdata : p.data = q.data) (hncorr : p.ncorr = q.ncorr)
    (hnunc : p.nunc = q.nunc) : p = q := by
  obtain ⟨d, n, m⟩ := p
  cases hdata
  cases hncorr
  cases hnunc
  rfl

/-- The loop counts the corrected sub-pages it has passed over (R90). -/
theorem processPage_ncorr (cfg : Config) (D : Page) (S C : Vector Word 4) (order : List SubIndex) :
    (processPage cfg D S C order).ncorr = (order.map (fun i => (classOf cfg S[i.val] C[i.val]).corrects)).sum :=
  (ncorr_foldl cfg S C order _).trans (Nat.zero_add _)

/-- The loop counts the uncorrectable sub-pages it has passed over (R90). -/
theorem processPage_nunc (cfg : Config) (D : Page) (S C : Vector Word 4) (order : List SubIndex) :
    (processPage cfg D S C order).nunc = (order.map (fun i => (classOf cfg S[i.val] C[i.val]).fails)).sum :=
  (nunc_foldl cfg S C order _).trans (Nat.zero_add _)

/-- NCORR of the page is a sum over its sub-pages (R90). -/
theorem correctPage_ncorr_eq_sum (cfg : Config) (D : Page) (S C : Vector Word 4) :
    (correctPage cfg D S C).ncorr = ∑ i : SubIndex, (classOf cfg S[i.val] C[i.val]).corrects :=
  (processPage_ncorr cfg D S C (List.finRange 4)).trans (Fin.sum_univ_def _).symm

/-- NUNC of the page is a sum over its sub-pages (R90). -/
theorem correctPage_nunc_eq_sum (cfg : Config) (D : Page) (S C : Vector Word 4) :
    (correctPage cfg D S C).nunc = ∑ i : SubIndex, (classOf cfg S[i.val] C[i.val]).fails :=
  (processPage_nunc cfg D S C (List.finRange 4)).trans (Fin.sum_univ_def _).symm

/-- The outcome is that of the two counts (R88, R90). -/
theorem correctPage_outcome (cfg : Config) (D : Page) (S C : Vector Word 4) :
    (correctPage cfg D S C).outcome = aggregateNat (correctPage cfg D S C).ncorr (correctPage cfg D S C).nunc := rfl

/-- The result is formed from the page and the two counts alone (R90). -/
theorem correctPage_congr (hdata : (correctPage cfg D S C).data = (correctPage cfg E S' C').data)
    (hncorr : (correctPage cfg D S C).ncorr = (correctPage cfg E S' C').ncorr)
    (hnunc : (correctPage cfg D S C).nunc = (correctPage cfg E S' C').nunc) :
    correctPage cfg D S C = correctPage cfg E S' C' :=
  congrArg PageProgress.result (PageProgress.eq_of_fields hdata hncorr hnunc)

/-- `SubAction` looks at the pair through its class alone (R86). -/
theorem subAction_congr {s c s' c' : Word} (h : classOf cfg s c = classOf cfg s' c') (d : SubPage) :
    subAction cfg d s c = subAction cfg d s' c' := by
  rw [subAction, subAction, h]

/-- `CorrectPage` looks at the words through their classes alone (R90). -/
theorem correctPage_congr_of_classOf
    (h : ∀ i : SubIndex, classOf cfg S[i.val] C[i.val] = classOf cfg S'[i.val] C'[i.val]) :
    correctPage cfg D S C = correctPage cfg D S' C' := by
  refine correctPage_congr (page_ext fun i => ?_) ?_ ?_
  · rw [sliceOf_correctPage, sliceOf_correctPage, subAction_congr (h i)]
  · simp only [correctPage_ncorr_eq_sum, h]
  · simp only [correctPage_nunc_eq_sum, h]

/-- Settles O50: a sub-page's result and what it counts do not depend on when the loop reaches it. -/
theorem orderOfSubPagesDoesNotMatter : Obligations.OrderOfSubPagesDoesNotMatter := by
  unfold Obligations.OrderOfSubPagesDoesNotMatter
  intro cfg D S C order hperm
  have hnodup : order.Nodup := hperm.nodup_iff.2 (by decide)
  refine PageProgress.eq_of_fields (page_ext fun i => ?_) ?_ ?_
  · simp only [processPage, sliceOf_foldl cfg S C order hnodup, sliceOf_foldl cfg S C [0, 1, 2, 3] (by decide),
      hperm.mem_iff]
  · simp only [processPage_ncorr, (hperm.map _).sum_eq]
  · simp only [processPage_nunc, (hperm.map _).sum_eq]

/-- Settles O51: the classes are those of the first pass, and each sub-page's action undoes itself. -/
theorem secondCorrectRestoresThePage : Obligations.SecondCorrectRestoresThePage := by
  unfold Obligations.SecondCorrectRestoresThePage
  intro cfg D S C
  have hncorr : (correctPage cfg (correctPage cfg D S C).data S C).ncorr = (correctPage cfg D S C).ncorr := by
    rw [correctPage_ncorr_eq_sum, correctPage_ncorr_eq_sum]
  have hnunc : (correctPage cfg (correctPage cfg D S C).data S C).nunc = (correctPage cfg D S C).nunc := by
    rw [correctPage_nunc_eq_sum, correctPage_nunc_eq_sum]
  refine ⟨page_ext fun i => ?_, ?_, hncorr, hnunc⟩
  · rw [sliceOf_correctPage, sliceOf_correctPage, subAction_twice]
  · rw [correctPage_outcome, hncorr, hnunc, correctPage_outcome]

/-- Each sub-page is counted at most once (R92). -/
theorem correctPage_counts_eq_sum (cfg : Config) (D : Page) (S C : Vector Word 4) :
    (correctPage cfg D S C).ncorr + (correctPage cfg D S C).nunc =
      ∑ i : SubIndex, ((classOf cfg S[i.val] C[i.val]).corrects + (classOf cfg S[i.val] C[i.val]).fails) := by
  rw [correctPage_ncorr_eq_sum, correctPage_nunc_eq_sum, Finset.sum_add_distrib]

/-- The outcome OK is that of no count (R88). -/
theorem aggregateNat_eq_outOk {ncorr nunc : Nat} : aggregateNat ncorr nunc = outOk ↔ ncorr = 0 ∧ nunc = 0 := by
  unfold aggregateNat
  by_cases hnunc : nunc > 0
  · rw [if_pos hnunc]
    exact ⟨fun h => absurd h (by decide), fun h => absurd h.2 (Nat.pos_iff_ne_zero.1 hnunc)⟩
  · by_cases hncorr : ncorr > 0
    · rw [if_neg hnunc, if_pos hncorr]
      exact ⟨fun h => absurd h (by decide), fun h => absurd h.1 (Nat.pos_iff_ne_zero.1 hncorr)⟩
    · rw [if_neg hnunc, if_neg hncorr]
      exact ⟨fun _ => by omega, fun _ => rfl⟩

end Sys2Proof.Machine
end

section
/-! The bits in which a page and its correction differ (R92): one for each DATAFIX. -/

namespace Sys2Proof.Machine

variable {cfg : Config} {D : Page} {S C : Vector Word 4}

/-- The number of bits in which two sub-pages differ. -/
def subDifference (d e : SubPage) : Nat := ∑ j : Fin 512, popcount (d[j.val] ^^^ e[j.val])

/-- Two pages differ in the bits in which their slices do (R29). -/
theorem bitDifference_eq_sum (D E : Page) :
    bitDifference D E = ∑ i : SubIndex, subDifference (sliceOf D i) (sliceOf E i) := by
  have hbyte (i : Fin 4) (j : Fin 512) : (finProdFinEquiv (i, j)).val = 512 * i.val + j.val := Nat.add_comm ..
  calc bitDifference D E
    _ = ∑ a : Fin 2048, popcount (D[a.val] ^^^ E[a.val]) := (Fin.sum_univ_def _).symm
    _ = ∑ p : Fin 4 × Fin 512, popcount (D[(finProdFinEquiv p).val] ^^^ E[(finProdFinEquiv p).val]) :=
      (Equiv.sum_comp (finProdFinEquiv (m := 4) (n := 512)) fun a => popcount (D[a.val] ^^^ E[a.val])).symm
    _ = ∑ i : Fin 4, ∑ j : Fin 512, popcount (D[(finProdFinEquiv (i, j)).val] ^^^ E[(finProdFinEquiv (i, j)).val]) :=
      Fintype.sum_prod_type _
    _ = ∑ i : SubIndex, subDifference (sliceOf D i) (sliceOf E i) := by
      simp only [subDifference, sliceOf_getElem, hbyte]

/-- A sub-page differs from itself in no bit. -/
theorem subDifference_self (d : SubPage) : subDifference d d = 0 := by
  have hzero : popcount (0#8) = 0 := by decide
  simp [subDifference, hzero]

/-- The mask of a bit address has one bit (R32). -/
theorem popcount_flipMask (a : Half) : popcount (flipMask a) = 1 := by
  have hmask : ∀ b < 8, popcount (1#8 <<< b) = 1 := by decide
  exact hmask _ (bitInByte_lt a)

/-- A flip changes one bit (R79). -/
theorem subDifference_flipInSubPage (d : SubPage) (a : Half) : subDifference d (flipInSubPage d a) = 1 := by
  have hzero : popcount (0#8) = 0 := by decide
  have hbyte (j : Fin 512) :
      popcount (d[j.val] ^^^ (flipInSubPage d a)[j.val]) = if j = ⟨byteIndex a, byteIndex_lt a⟩ then 1 else 0 := by
    simp only [flipInSubPage, Vector.getElem_ofFn, Fin.ext_iff]
    split
    · rw [← BitVec.xor_assoc, BitVec.xor_self, BitVec.zero_xor, popcount_flipMask]
    · rw [BitVec.xor_self, hzero]
  simp only [subDifference, hbyte, Finset.sum_ite_eq', Finset.mem_univ, if_true]

/-- `SubAction` changes one bit in a DATAFIX and none elsewhere (R86). -/
theorem subDifference_subAction (cfg : Config) (d : SubPage) (s c : Word) :
    subDifference d (subAction cfg d s c).data = if isDatafixPair cfg s c then 1 else 0 := by
  unfold subAction isDatafixPair
  cases classOf cfg s c with
  | datafix f => exact subDifference_flipInSubPage d _
  | _ => exact subDifference_self d

/-- A DATAFIX is counted as a correction (R79). -/
theorem isDatafixPair_le_corrects (cfg : Config) (s c : Word) :
    (if isDatafixPair cfg s c then 1 else 0) ≤ (classOf cfg s c).corrects := by
  unfold isDatafixPair
  cases classOf cfg s c <;> simp [SubClass.corrects]

/-- The correction of a page differs from it in one bit for each DATAFIX pair (R92). -/
theorem bitDifference_correctPage (cfg : Config) (D : Page) (S C : Vector Word 4) :
    bitDifference D (correctPage cfg D S C).data =
      ∑ i : SubIndex, if isDatafixPair cfg S[i.val] C[i.val] then 1 else 0 := by
  simp only [bitDifference_eq_sum, sliceOf_correctPage, subDifference_subAction]

/-- Where nothing is counted as a correction nothing is changed (R92). -/
theorem correctPage_data_of_ncorr_eq_zero (h : (correctPage cfg D S C).ncorr = 0) :
    (correctPage cfg D S C).data = D := by
  rw [correctPage_ncorr_eq_sum, Finset.sum_eq_zero_iff] at h
  refine page_ext fun i => ?_
  have hi : (classOf cfg S[i.val] C[i.val]).corrects = 0 := h i (Finset.mem_univ i)
  rw [sliceOf_correctPage, subAction]
  cases hk : classOf cfg S[i.val] C[i.val] with
  | datafix f => simp [hk, SubClass.corrects] at hi
  | _ => rfl

/-- Settles O52: the counts and the differing bits are sums over the sub-pages, compared term by term. -/
theorem correctPageBounds : Obligations.CorrectPageBounds := by
  unfold Obligations.CorrectPageBounds
  intro cfg D S C
  have hok : (correctPage cfg D S C).outcome = outOk ↔
      (correctPage cfg D S C).ncorr = 0 ∧ (correctPage cfg D S C).nunc = 0 := aggregateNat_eq_outOk
  refine ⟨?counts, ?datafixes, ?corrected, hok, fun h => ?unchanged, aggregateNat_ne_two _ _⟩
  case counts =>
    rw [correctPage_counts_eq_sum]
    exact Finset.sum_le_card_nsmul _ _ 1 fun i _ => SubClass.corrects_add_fails_le _
  case datafixes =>
    rw [bitDifference_correctPage, ← Finset.card_filter, ← List.toFinset_finRange,
      (List.nodup_finRange 4).card_eq_countP]
    simp only [Bool.decide_eq_true]
  case corrected =>
    rw [bitDifference_correctPage, correctPage_ncorr_eq_sum]
    exact Finset.sum_le_sum fun i _ => isDatafixPair_le_corrects cfg _ _
  case unchanged =>
    obtain ⟨hncorr, hnunc⟩ := hok.1 h
    have hlog : (correctPage cfg D S C).log = [] := if_neg (not_or.2 ⟨not_not.2 hncorr, not_not.2 hnunc⟩)
    exact ⟨correctPage_data_of_ncorr_eq_zero hncorr, hlog⟩

end Sys2Proof.Machine
end

section
/-! The document's testable properties of the whole operation (R93), and the repair of a single wrong bit. -/

namespace Sys2Proof.Machine

variable {cfg : Config} {D : Page} {S C : Vector Word 4} {i : SubIndex} {s c : Word}

/-- A pair that is erased or equal is skipped or clean (R76, R77). -/
theorem classOf_quiet (cfg : Config) (h : s = erased ∨ s = c) :
    classOf cfg s c = .skip ∨ classOf cfg s c = .clean := by
  by_cases hs : s = erased
  · exact .inl (classOf_erased hs)
  · have h0 : syndrome s c = 0#32 := BitVec.xor_eq_zero_iff.2 (h.resolve_left hs)
    exact .inr (classOf_zero hs h0)

/-- A skipped or clean sub-page is not counted as a correction. -/
theorem corrects_quiet (cfg : Config) (h : s = erased ∨ s = c) : (classOf cfg s c).corrects = 0 := by
  obtain hk | hk := classOf_quiet cfg h <;> rw [hk] <;> rfl

/-- A skipped or clean sub-page is not counted as uncorrectable. -/
theorem fails_quiet (cfg : Config) (h : s = erased ∨ s = c) : (classOf cfg s c).fails = 0 := by
  obtain hk | hk := classOf_quiet cfg h <;> rw [hk] <;> rfl

/-- A skipped or clean sub-page keeps its data. -/
theorem subAction_quiet (cfg : Config) (h : s = erased ∨ s = c) (d : SubPage) : (subAction cfg d s c).data = d := by
  obtain hk | hk := classOf_quiet cfg h <;> rw [subAction, hk]

/-- Settles O53: every sub-page is erased or has equal words. -/
theorem allZeroSyndromesAreOk : Obligations.AllZeroSyndromesAreOk := by
  unfold Obligations.AllZeroSyndromesAreOk
  intro cfg D S C h
  have hquiet (i : SubIndex) : S[i.val] = erased ∨ S[i.val] = C[i.val] := .inr (h i)
  have hdata : (correctPage cfg D S C).data = D := page_ext fun i => by
    rw [sliceOf_correctPage, subAction_quiet cfg (hquiet i)]
  have hncorr : (correctPage cfg D S C).ncorr = 0 := by
    rw [correctPage_ncorr_eq_sum]
    exact Finset.sum_eq_zero fun i _ => corrects_quiet cfg (hquiet i)
  have hnunc : (correctPage cfg D S C).nunc = 0 := by
    rw [correctPage_nunc_eq_sum]
    exact Finset.sum_eq_zero fun i _ => fails_quiet cfg (hquiet i)
  have hprogress : processPage cfg D S C [0, 1, 2, 3] = { data := D, ncorr := 0, nunc := 0 } :=
    PageProgress.eq_of_fields hdata hncorr hnunc
  rw [correctPage, hprogress]
  rfl

/-- With every other sub-page skipped or clean, NCORR is that of the one sub-page. -/
theorem correctPage_ncorr_alone (hothers : ∀ j : SubIndex, j ≠ i → S[j.val] = erased ∨ S[j.val] = C[j.val]) :
    (correctPage cfg D S C).ncorr = (classOf cfg S[i.val] C[i.val]).corrects := by
  rw [correctPage_ncorr_eq_sum]
  exact Fintype.sum_eq_single i fun j hj => corrects_quiet cfg (hothers j hj)

/-- With every other sub-page skipped or clean, NUNC is that of the one sub-page. -/
theorem correctPage_nunc_alone (hothers : ∀ j : SubIndex, j ≠ i → S[j.val] = erased ∨ S[j.val] = C[j.val]) :
    (correctPage cfg D S C).nunc = (classOf cfg S[i.val] C[i.val]).fails := by
  rw [correctPage_nunc_eq_sum]
  exact Fintype.sum_eq_single i fun j hj => fails_quiet cfg (hothers j hj)

/-- Settles O54: the one ECCFIX is counted, and no class of the page changes data. -/
theorem oneHotSyndromeAloneIsCorrected : Obligations.OneHotSyndromeAloneIsCorrected := by
  unfold Obligations.OneHotSyndromeAloneIsCorrected
  intro cfg D S C i k hs hk hothers
  have hclass : classOf cfg S[i.val] C[i.val] = .eccfix k := classOf_shift hs hk
  have hncorr : (correctPage cfg D S C).ncorr = 1 := by
    rw [correctPage_ncorr_alone hothers, hclass]
    rfl
  have hnunc : (correctPage cfg D S C).nunc = 0 := by
    rw [correctPage_nunc_alone hothers, hclass]
    rfl
  refine ⟨?_, page_ext fun j => ?_, hncorr, hnunc⟩
  · rw [correctPage_outcome, hncorr, hnunc]
    rfl
  · rw [sliceOf_correctPage]
    by_cases hj : j = i
    · rw [hj, subAction, hclass]
    · exact subAction_quiet cfg (hothers j hj) _

/-- A valid signature under the model's configuration is DATAFIX: it is past the tests before (R53, R79). -/
theorem classOf_of_validSignature (hs : s ≠ erased) (hv : validSignature config (s ^^^ c) = true) :
    classOf config s c = .datafix (Syn.ofWord (s ^^^ c)) := by
  obtain ⟨h0, h1⟩ := tests_fail_of_validSignature hv
  exact classOf_valid hs h0 (Bool.eq_false_iff.1 h1) hv

/-- `SubAction` of a valid signature flips the bit at the odd half (R79, R86). -/
theorem subAction_of_validSignature (hs : s ≠ erased) (hv : validSignature config (s ^^^ c) = true) (d : SubPage) :
    (subAction config d s c).data = flipAt d (oddOf config (s ^^^ c)) := by
  rw [subAction, classOf_of_validSignature hs hv]
  simp only [datafixOffset_config, Syn.word_ofWord, flipAt]

/-- Settles O55: the one DATAFIX is counted and flips one bit of its sub-page; the other sub-pages are kept. -/
theorem validSignatureAloneFlipsOneBit : Obligations.ValidSignatureAloneFlipsOneBit := by
  unfold Obligations.ValidSignatureAloneFlipsOneBit
  intro D S C i hs hv hothers
  have hclass := classOf_of_validSignature hs hv
  have hslice : sliceOf (correctPage config D S C).data i =
      flipAt (sliceOf D i) (oddOf config (S[i.val] ^^^ C[i.val])) := by
    rw [sliceOf_correctPage, subAction_of_validSignature hs hv]
  have hkept (j : SubIndex) (hj : j ≠ i) : sliceOf (correctPage config D S C).data j = sliceOf D j := by
    rw [sliceOf_correctPage, subAction_quiet config (hothers j hj)]
  refine ⟨?outcome, ?difference, hslice, hkept⟩
  case outcome =>
    rw [correctPage_outcome, correctPage_ncorr_alone hothers, correctPage_nunc_alone hothers, hclass]
    rfl
  case difference =>
    rw [bitDifference_eq_sum, Fintype.sum_eq_single i fun j hj => by rw [hkept j hj, subDifference_self], hslice]
    exact subDifference_flipInSubPage _ _

/-- A word without unused bits is its used bits. -/
theorem and_used_eq_self {w : Word} (h : w &&& 0x00F000F0#32 = 0#32) : w &&& 0xFF0FFF0F#32 = w := by
  have hcover : 0xFF0FFF0F#32 ||| 0x00F000F0#32 = BitVec.allOnes 32 := by decide
  calc w &&& 0xFF0FFF0F#32
    _ = (w &&& 0xFF0FFF0F#32) ||| (w &&& 0x00F000F0#32) := by rw [h, BitVec.or_zero]
    _ = w := by rw [← BitVec.and_or_distrib_left, hcover, BitVec.and_allOnes]

/-- A difference added back: the words of a pair and their syndrome (R45). -/
theorem xor_xor_self_right (x y : Word) : y ^^^ (x ^^^ y) = x := by
  rw [BitVec.xor_comm x, ← BitVec.xor_assoc, BitVec.xor_self, BitVec.zero_xor]

/-- Settles O56: the flip changes the computed word by the syndrome, which makes it the stored one. -/
theorem recomputedEccIsClean : Obligations.RecomputedEccIsClean := by
  unfold Obligations.RecomputedEccIsClean
  intro gen hgen D S C i hs hC hv hunused
  have hsyn : synOf (oddOf config (S[i.val] ^^^ C[i.val])) = S[i.val] ^^^ C[i.val] := by
    rw [← and_used_eq_synOf hv, and_used_eq_self hunused]
  have hrecomputed : gen (sliceOf (correctPage config D S C).data i) = S[i.val] := by
    rw [sliceOf_correctPage, subAction_of_validSignature hs hv, hgen, hsyn, ← hC, xor_xor_self_right]
  refine ⟨hrecomputed, classOf_zero hs ?_⟩
  rw [hrecomputed]
  exact BitVec.xor_self

/-- Settles O57: the one UNCORR makes NUNC non-zero, which decides the outcome. -/
theorem oneUncorrectableSubPageOverrides : Obligations.OneUncorrectableSubPageOverrides := by
  unfold Obligations.OneUncorrectableSubPageOverrides
  intro cfg D S C i hs hpop hv
  obtain ⟨h0, h1⟩ := two_le_popcount.1 hpop
  have hclass : classOf cfg S[i.val] C[i.val] = .uncorr (Syn.ofWord (S[i.val] ^^^ C[i.val])) :=
    classOf_invalid hs h0 (Bool.eq_false_iff.1 h1) (Bool.eq_false_iff.1 hv)
  have hfails : (classOf cfg S[i.val] C[i.val]).fails = 1 := by
    rw [hclass]
    rfl
  have hnunc : 0 < (correctPage cfg D S C).nunc := by
    rw [correctPage_nunc_eq_sum]
    exact Finset.sum_pos' (fun _ _ => Nat.zero_le _) ⟨i, Finset.mem_univ i, hfails ▸ Nat.one_pos⟩
  rw [correctPage_outcome, aggregateNat, if_pos hnunc]

/-- With one sub-page erased at most three are counted (R92, R93). -/
theorem correctPage_counts_le_three (hs : S[i.val] = erased) :
    (correctPage cfg D S C).ncorr + (correctPage cfg D S C).nunc ≤ 3 := by
  have hskip : (classOf cfg S[i.val] C[i.val]).corrects + (classOf cfg S[i.val] C[i.val]).fails = 0 := by
    rw [corrects_quiet cfg (.inl hs), fails_quiet cfg (.inl hs)]
  rw [correctPage_counts_eq_sum, ← Finset.add_sum_erase _ _ (Finset.mem_univ i), hskip, Nat.zero_add]
  have hcard : (Finset.univ.erase i).card = 3 := by
    rw [Finset.card_erase_of_mem (Finset.mem_univ i)]
    rfl
  exact (Finset.sum_le_card_nsmul _ _ 1 fun j _ => SubClass.corrects_add_fails_le _).trans_eq (by rw [hcard]; rfl)

/-- Settles O58: the marker is the first test, so the class does not depend on the computed word. -/
theorem erasedSubPageIsLeftAlone : Obligations.ErasedSubPageIsLeftAlone := by
  unfold Obligations.ErasedSubPageIsLeftAlone
  intro cfg D S C i c hs
  refine ⟨?_, correctPage_congr_of_classOf fun j => ?_, correctPage_counts_le_three hs⟩
  · rw [sliceOf_correctPage, subAction_quiet cfg (.inl hs)]
  · by_cases hj : i = j
    · subst hj
      rw [classOf_erased hs, classOf_erased hs]
    · rw [Vector.getElem_set_ne _ _ (Fin.val_ne_of_ne hj)]

/-- Settles O59: the syndrome of the damaged sub-page is that of the bit's address, and the others are clean. -/
theorem singleBitErrorIsRepaired : Obligations.SingleBitErrorIsRepaired := by
  unfold Obligations.SingleBitErrorIsRepaired
  intro gen hgen hmarker D S C i a hS hC
  have hs : S[i.val] ≠ erased := by
    rw [hS]
    exact hmarker _
  have hsyn : S[i.val] ^^^ C[i.val] = synOf a := by
    rw [hS, hC, sliceOf_withSlice, if_pos rfl, hgen, ← BitVec.xor_assoc, BitVec.xor_self, BitVec.zero_xor]
  have hothers (j : SubIndex) (hj : j ≠ i) : S[j.val] = erased ∨ S[j.val] = C[j.val] := by
    rw [hS, hC, sliceOf_withSlice, if_neg hj.symm]
    exact .inr rfl
  have hv : validSignature config (S[i.val] ^^^ C[i.val]) = true := by
    rw [hsyn]
    exact validSignature_synOf a
  obtain ⟨houtcome, -, hslice, hkept⟩ :=
    validSignatureAloneFlipsOneBit (withSlice D i (flipAt (sliceOf D i) a)) S C i hs hv hothers
  refine ⟨page_ext fun j => ?_, houtcome⟩
  by_cases hj : j = i
  · rw [hj, hslice, hsyn, oddOf_synOf, sliceOf_withSlice, if_pos rfl]
    exact flipInSubPage_twice _ a
  · rw [hkept j hj, sliceOf_withSlice, if_neg (Ne.symm hj)]

end Sys2Proof.Machine
end

section
/-! The step machine and the whole-page function (R73, R86, R91, R109): an enabled STEP is `SubAction` on its slice, and
after `k` of them the block holds the loop's page and counts after `k` sub-pages. -/

namespace Sys2Proof.Machine

variable {s t : State}

/-- A byte of a page with one slice replaced (R29). -/
theorem withSlice_getElem (D : Page) (i : SubIndex) (d : SubPage) (a : Nat) (ha : a < 2048) :
    (withSlice D i d)[a] = if a / 512 = i.val then d[a % 512]'(Nat.mod_lt _ (by decide)) else D[a] := by
  simp [withSlice]

/-- Replacing a slice by itself changes nothing. -/
theorem withSlice_sliceOf (D : Page) (i : SubIndex) : withSlice D i (sliceOf D i) = D := by
  refine page_ext fun j => ?_
  rw [sliceOf_withSlice]
  split
  · subst_vars
    rfl
  · rfl

/-- The page after a DATAFIX: the slice of its sub-page with the named bit flipped (R79). -/
theorem page_afterAction_datafix {i : SubIndex} (hi : s.sp.toNat = i.val) (f : Syn) :
    (afterAction (.datafix f) s).page =
      withSlice s.page i (flipInSubPage (sliceOf s.page i) (datafixOffset config f)) := by
  apply Vector.ext
  intro a ha
  have hb := byteIndex_lt (datafixOffset config f)
  rw [State.page_getElem, afterAction_byteAt, withSlice_getElem, hi]
  simp only [flipInSubPage, Vector.getElem_ofFn, sliceOf_getElem, State.page_getElem]
  by_cases hslice : a / 512 = i.val
  · have ha' : 512 * i.val + a % 512 = a := by omega
    have hbyte : a = dataAddress i.val (datafixOffset config f) ↔ a % 512 = byteIndex (datafixOffset config f) := by
      rw [dataAddress]
      omega
    simp only [hslice, if_true, ha', hbyte]
  · have hne : ¬a = dataAddress i.val (datafixOffset config f) := by
      rw [dataAddress]
      omega
    rw [if_neg hslice, if_neg hne]

/-- The page after an action: `SubAction` on the slice of its sub-page (R86). -/
theorem page_afterAction {i : SubIndex} (hi : s.sp.toNat = i.val) :
    (afterAction (s.classAt i) s).page =
      withSlice s.page i (subAction config (sliceOf s.page i) (s.storedAt i) (s.computedAt i)).data := by
  unfold subAction State.classAt
  cases classOf config (s.storedAt i) (s.computedAt i) with
  | datafix f => exact page_afterAction_datafix hi f
  | _ => exact (withSlice_sliceOf s.page i).symm

/-- Settles O46: the action of the pair's class on its slice, then SP + 1. -/
theorem stepIsSubAction : Obligations.StepIsSubAction := by
  unfold Obligations.StepIsSubAction
  intro s i hi
  refine ⟨_, execStep_eq hi, ?_, ?_, ?_, by simp⟩
  · exact page_afterAction (stepSubPage_eq_some.1 hi).2
  · rw [subAction_dcorr]
    exact afterAction_ncorr_eq_add _ s
  · rw [subAction_dunc]
    exact afterAction_nunc_eq_add _ s

/-- A run of `m + n` steps is a run of `n` steps after one of `m`. -/
theorem run_add {m : Nat} (n : Nat) (h : Host.Core.run core m s = .next t) :
    Host.Core.run core (m + n) s = Host.Core.run core n t := by
  induction m generalizing s with
  | zero =>
    cases h
    rw [Nat.zero_add]
  | succ m ih =>
    cases hstep : core.step s with
    | next u =>
      rw [run_succ_next m hstep] at h
      rw [Nat.add_right_comm, run_succ_next _ hstep, ih h]
    | fault | refused =>
      simp only [Host.Core.run, hstep] at h
      cases h

/-- A run that takes one step more. -/
theorem run_add_one {m : Nat} {u : State} (h : Host.Core.run core m s = .next t) (hstep : step t = .next u) :
    Host.Core.run core (m + 1) s = .next u := by
  rw [run_add 1 h, run_succ_next 0 hstep, run_zero]

/-- With nothing presented a step is the block's turn (log entry 3). -/
theorem step_of_empty_schedule (h : s.schedule = []) : step s = blockTurn s := by
  simp only [step, transition, h]

/-- A BUSY block left alone takes one STEP for each remaining sub-page (R73). -/
theorem run_steps (k : Nat) (hph : s.ph = phBusy) (hk : s.sp.toNat + k ≤ 4) (hq : s.schedule = []) :
    ∃ t : State,
      Host.Core.run core k s = .next t ∧ t.ph = phBusy ∧ t.sp.toNat = s.sp.toNat + k ∧ t.schedule = [] := by
  induction k with
  | zero => exact ⟨s, run_zero s, hph, rfl, hq⟩
  | succ k ih =>
    obtain ⟨t, hrun, htph, htsp, htq⟩ := ih (by omega)
    have hlt : t.sp.toNat < 4 := by omega
    have hi : stepSubPage t = some ⟨t.sp.toNat, hlt⟩ := stepSubPage_eq_some.2 ⟨htph, rfl⟩
    have hstep := (step_of_empty_schedule htq).trans (blockTurn_step hi)
    refine ⟨_, run_add_one hrun hstep, by simp [htph], ?_, by simp [htq]⟩
    rw [State.advanceSp_sp, afterAction_sp, toNat_sp_add_one hlt, htsp, Nat.add_assoc]

/-- Settles O47: the remaining STEPs lead to SP = 4, where the block's turn is FINISH. -/
theorem busyBlockReachesDone : Obligations.BusyBlockReachesDone := by
  unfold Obligations.BusyBlockReachesDone
  intro s hph hsp hq
  refine ⟨?_, fun k hk => ?_⟩
  · obtain ⟨t, hrun, htph, htsp, htq⟩ := run_steps (4 - s.sp.toNat) hph (by omega) hq
    have hlast : t.sp = 4#3 := BitVec.eq_of_toNat_eq (by rw [htsp, Nat.add_sub_cancel' hsp]; rfl)
    have hlength : 5 - s.sp.toNat = 4 - s.sp.toNat + 1 := by omega
    rw [hlength]
    exact ⟨_, run_add_one hrun ((step_of_empty_schedule htq).trans (blockTurn_finish htph hlast)), rfl, hlast⟩
  · obtain ⟨t, hrun, htph, htsp, -⟩ := run_steps k hph (by omega) hq
    exact ⟨t, hrun, htph, htsp⟩

/-- What the loop of `CorrectPage` has after the first `k` sub-pages of the state's page and words (R90). -/
def State.progressAt (s : State) (k : Nat) : PageProgress :=
  processPage config s.page s.stored s.computed (([0, 1, 2, 3] : List SubIndex).take k)

/-- One more sub-page of the loop. -/
theorem State.progressAt_succ (s : State) {k : Nat} (hk : k < 4) :
    s.progressAt (k + 1) = processSubPage config s.stored s.computed (s.progressAt k) ⟨k, hk⟩ := by
  have htake : ([0, 1, 2, 3] : List SubIndex).take (k + 1) = ([0, 1, 2, 3] : List SubIndex).take k ++ [⟨k, hk⟩] := by
    interval_cases k <;> rfl
  rw [progressAt, processPage, htake, List.foldl_append]
  rfl

/-- The block in `t` is inside an operation that was started in `s` and has processed `k` sub-pages: it holds what the
loop has, and the rest of the buffers and LOG as they were (R91, R109). -/
structure Progress (s : State) (k : Nat) (t : State) : Prop where
  ph : t.ph = phBusy
  sp : t.sp.toNat = k
  page : t.page = (s.progressAt k).data
  ncorr : t.ncorr.toNat = (s.progressAt k).ncorr
  nunc : t.nunc.toNat = (s.progressAt k).nunc
  counts : t.ncorr.toNat + t.nunc.toNat ≤ k
  stored : t.stored = s.stored
  computed : t.computed = s.computed
  log : t.log = s.log
  later : ∀ a, 512 * k ≤ a → t.byteAt a = s.byteAt a

/-- An accepted CORRECT starts an operation with nothing processed (R67). -/
theorem Progress.start (s : State) (q : List Turn) : Progress s 0 ((s.setSchedule q).clearResult.setPh phBusy) :=
  { ph := rfl, sp := rfl, page := rfl, ncorr := rfl, nunc := rfl, counts := Nat.le_refl 0, stored := rfl,
    computed := rfl, log := rfl, later := fun _ _ => rfl }

/-- The schedule takes no part in the progress of an operation. -/
theorem Progress.setSchedule {k : Nat} (h : Progress s k t) (q : List Turn) : Progress s k (t.setSchedule q) :=
  { h with }

/-- A read of the result registers takes no part in it either (R35). -/
theorem Progress.recordRead {k : Nat} (h : Progress s k t) (r : Reading) : Progress s k (t.recordRead r) :=
  { h with }

/-- A count that grows within three bits does not wrap (log entry 8). -/
theorem toNat_add_ofNat {v : BitVec 3} {n : Nat} (h : v.toNat + n < 8) :
    (v + BitVec.ofNat 3 n).toNat = v.toNat + n := by
  rw [BitVec.toNat_add, BitVec.toNat_ofNat, Nat.add_mod_mod, Nat.mod_eq_of_lt h]

/-- Up to four counted sub-pages, NCORR grows by what the class corrects, as a number. -/
theorem afterAction_ncorr_toNat (k : SubClass) (h : s.ncorr.toNat + s.nunc.toNat ≤ 4) :
    (afterAction k s).ncorr.toNat = s.ncorr.toNat + k.corrects := by
  have hcounted := k.corrects_add_fails_le
  rw [afterAction_ncorr_eq_add]
  exact toNat_add_ofNat (by omega)

/-- Up to four counted sub-pages, NUNC grows by what the class fails, as a number. -/
theorem afterAction_nunc_toNat (k : SubClass) (h : s.ncorr.toNat + s.nunc.toNat ≤ 4) :
    (afterAction k s).nunc.toNat = s.nunc.toNat + k.fails := by
  have hcounted := k.corrects_add_fails_le
  rw [afterAction_nunc_eq_add]
  exact toNat_add_ofNat (by omega)

/-- An action changes nothing behind its sub-page (R81). -/
theorem afterAction_byteAt_of_le (k : SubClass) {a : Nat} (ha : 512 * (s.sp.toNat + 1) ≤ a) :
    (afterAction k s).byteAt a = s.byteAt a := by
  by_contra hne
  obtain ⟨f, -, hf⟩ := afterAction_byteAt_of_ne hne
  have := dataAddress_bounds s.sp.toNat (datafixOffset config f)
  omega

/-- The block's turn processes the next sub-page of the loop (R70, R91). -/
theorem Progress.stepped {k : Nat} (h : Progress s k t) (hk : k < 4) :
    blockTurn t = .next (afterAction (t.classAt ⟨k, hk⟩) t).advanceSp ∧
      Progress s (k + 1) (afterAction (t.classAt ⟨k, hk⟩) t).advanceSp := by
  have hi : stepSubPage t = some ⟨k, hk⟩ := stepSubPage_eq_some.2 ⟨h.ph, h.sp⟩
  have hstored : t.storedAt ⟨k, hk⟩ = s.stored[k] := by rw [State.storedAt, h.stored]
  have hcomputed : t.computedAt ⟨k, hk⟩ = s.computed[k] := by rw [State.computedAt, h.computed]
  have hclass : t.classAt ⟨k, hk⟩ = classOf config s.stored[k] s.computed[k] := by
    rw [State.classAt, hstored, hcomputed]
  have hbound : t.ncorr.toNat + t.nunc.toNat ≤ 4 := h.counts.trans (Nat.le_of_lt hk)
  refine ⟨blockTurn_step hi, ?_⟩
  exact {
    ph := by simp [h.ph]
    sp := by rw [State.advanceSp_sp, afterAction_sp, toNat_sp_add_one (h.sp ▸ hk), h.sp]
    page := by
      rw [State.advanceSp_page, page_afterAction h.sp, hstored, hcomputed, h.page, s.progressAt_succ hk]
      rfl
    ncorr := by
      rw [State.advanceSp_ncorr, afterAction_ncorr_toNat _ hbound, hclass, h.ncorr, s.progressAt_succ hk,
        ← subAction_dcorr]
      rfl
    nunc := by
      rw [State.advanceSp_nunc, afterAction_nunc_toNat _ hbound, hclass, h.nunc, s.progressAt_succ hk,
        ← subAction_dunc]
      rfl
    counts := (afterAction_counts_le _ t).trans (Nat.add_le_add_right h.counts 1)
    stored := by simp [h.stored]
    computed := by simp [h.computed]
    log := by simp [h.log]
    later := fun a ha => by
      rw [State.advanceSp_byteAt, afterAction_byteAt_of_le _ (by rwa [h.sp])]
      exact h.later a (by omega) }

/-- The other turns inside an operation leave its progress: no command, a dropped CORRECT, a read (R68, R91). -/
theorem Progress.otherTurn {k : Nat} {u : Turn} (h : Progress s k t) (hu : u.insideOperation = true)
    (hblock : u ≠ .block) :
    ∃ t' : State, takeTurn u t = .next t' ∧ Progress s k t' ∧ t'.schedule = t.schedule := by
  cases u with
  | cmd code =>
    obtain ⟨rfl, -⟩ | ⟨rfl, -⟩ | ⟨rfl, -⟩ | ⟨rfl, -⟩ := decodeCmd_cases code
    · exact ⟨t, rfl, h, rfl⟩
    · exact ⟨t, execCorrect_dropped h.ph, h, rfl⟩
    · cases hu
    · cases hu
  | rdr => exact ⟨_, rfl, h.recordRead _, rfl⟩
  | block => exact absurd rfl hblock
  | ldd | lds | ldc | rdd | rds | rdc | rdsp => cases hu

/-- A run over turns inside an operation processes a sub-page for each turn of the block, up to four (R91). -/
theorem Progress.run {k : Nat} (between rest : List Turn) (h : Progress s k t) (hq : t.schedule = between ++ rest)
    (hinside : ∀ u ∈ between, u.insideOperation = true) (hcount : k + between.count .block ≤ 4) :
    ∃ t' : State, Host.Core.run core between.length t = .next t' ∧ Progress s (k + between.count .block) t' ∧
      t'.schedule = rest := by
  induction between generalizing k t with
  | nil => exact ⟨t, rfl, h, hq⟩
  | cons u between ih =>
    obtain ⟨hu, hinside'⟩ := List.forall_mem_cons.1 hinside
    have hstep : step t = takeTurn u (t.setSchedule (between ++ rest)) := step_of_schedule hq
    have h' : Progress s k (t.setSchedule (between ++ rest)) := h.setSchedule _
    by_cases hblock : u = .block
    · subst hblock
      rw [List.count_cons_self] at hcount ⊢
      obtain ⟨hturn, hnext⟩ := h'.stepped (by omega)
      obtain ⟨t', hrun, hfinal, hq'⟩ := ih hnext (by simp) hinside' (by omega)
      refine ⟨t', ?_, ?_, hq'⟩
      · rw [List.length_cons, run_succ_next _ (hstep.trans hturn), hrun]
      · rwa [Nat.add_comm _ 1, ← Nat.add_assoc]
    · rw [List.count_cons_of_ne hblock] at hcount ⊢
      obtain ⟨t₁, hturn, hnext, hq₁⟩ := h'.otherTurn hu hblock
      obtain ⟨t', hrun, hfinal, hq'⟩ := ih hnext hq₁ hinside' hcount
      refine ⟨t', ?_, hfinal, hq'⟩
      rw [List.length_cons, run_succ_next _ (hstep.trans hturn), hrun]

/-- A run of an accepted CORRECT and turns inside its operation (R67, R91). -/
theorem run_operation {between rest : List Turn} (hopen : s.ph = phIdle ∨ s.ph = phDone)
    (hq : s.schedule = .cmd cmdCorrect :: (between ++ rest)) (hinside : ∀ u ∈ between, u.insideOperation = true)
    (hcount : between.count .block ≤ 4) :
    ∃ t : State, Host.Core.run core (between.length + 1) s = .next t ∧ Progress s (between.count .block) t ∧
      t.schedule = rest := by
  have hstep : step s = .next ((s.setSchedule (between ++ rest)).clearResult.setPh phBusy) :=
    (step_of_schedule hq).trans (execCorrect_accepted hopen)
  obtain ⟨t, hrun, hprogress, hrest⟩ :=
    (Progress.start s (between ++ rest)).run between rest rfl hinside (by rwa [Nat.zero_add])
  refine ⟨t, ?_, ?_, hrest⟩
  · rw [run_succ_next _ hstep, hrun]
  · rwa [Nat.zero_add] at hprogress

/-- FINISH after four sub-pages forms the result of the whole-page function (R87 to R91). -/
theorem Progress.finished (h : Progress s 4 t) :
    (afterFinish t).page = (correctPage config s.page s.stored s.computed).data ∧
    (afterFinish t).outcome = (correctPage config s.page s.stored s.computed).outcome ∧
    (afterFinish t).ncorr.toNat = (correctPage config s.page s.stored s.computed).ncorr ∧
    (afterFinish t).nunc.toNat = (correctPage config s.page s.stored s.computed).nunc ∧
    (afterFinish t).log = s.log ++ (correctPage config s.page s.stored s.computed).log := by
  have hresult : correctPage config s.page s.stored s.computed = (s.progressAt 4).result := rfl
  rw [hresult]
  refine ⟨h.page, ?_, h.ncorr, h.nunc, ?_⟩
  · rw [afterFinish_outcome, aggregate_eq_aggregateNat, h.ncorr, h.nunc]
    rfl
  · have hrecord (v : BitVec 3) : BitVec.ofNat 3 v.toNat = v := by
      rw [BitVec.ofNat_toNat, BitVec.setWidth_eq]
    rw [afterFinish_log, h.log, PageProgress.result, ← h.ncorr, ← h.nunc, hrecord, hrecord]
    exact congrArg (s.log ++ ·) (append_logRecords [] t.ncorr t.nunc)

/-- Settles O48: the operation's turns process the four sub-pages, and the fifth turn of the block is FINISH. -/
theorem stepMachineComputesCorrectPage : Obligations.StepMachineComputesCorrectPage := by
  unfold Obligations.StepMachineComputesCorrectPage
  intro s between rest hopen hq hinside hcount
  obtain ⟨t, hrun, hprogress, hrest⟩ := run_operation hopen hq hinside (by omega)
  rw [hcount] at hprogress
  have hsp : t.sp = 4#3 := BitVec.eq_of_toNat_eq hprogress.sp
  have hfinish : step t = .next (afterFinish (t.setSchedule rest)) :=
    (step_of_schedule hrest).trans (blockTurn_finish hprogress.ph hsp)
  obtain ⟨hpage, houtcome, hncorr, hnunc, hlog⟩ := (hprogress.setSchedule rest).finished
  exact ⟨_, run_add_one hrun hfinish, hpage, houtcome, hncorr, hnunc, hlog, hsp, rfl, hprogress.stored,
    hprogress.computed, rfl⟩

/-- The loop changes at most one bit of each sub-page it passes over (R92, R109). -/
theorem bitDifference_processPage_le (cfg : Config) (D : Page) (S C : Vector Word 4) {order : List SubIndex}
    (hnodup : order.Nodup) : bitDifference D (processPage cfg D S C order).data ≤ order.length := by
  have hslice (i : SubIndex) :
      subDifference (sliceOf D i) (sliceOf (processPage cfg D S C order).data i) ≤
        if i ∈ order.toFinset then 1 else 0 := by
    rw [processPage, sliceOf_foldl cfg S C order hnodup]
    simp only [List.mem_toFinset]
    split
    · rw [subDifference_subAction]
      split <;> decide
    · rw [subDifference_self]
  calc bitDifference D (processPage cfg D S C order).data
    _ = ∑ i : SubIndex, subDifference (sliceOf D i) (sliceOf (processPage cfg D S C order).data i) :=
      bitDifference_eq_sum ..
    _ ≤ ∑ i : SubIndex, if i ∈ order.toFinset then 1 else 0 := Finset.sum_le_sum fun i _ => hslice i
    _ = order.length := by
      rw [Finset.sum_boole, Finset.filter_univ_mem, Nat.cast_id, List.toFinset_card_of_nodup hnodup]

/-- Settles O49: RESET keeps the buffers and LOG that `k` turns of the block left, and clears the rest. -/
theorem resetAbandonsTheOperation : Obligations.ResetAbandonsTheOperation := by
  unfold Obligations.ResetAbandonsTheOperation
  intro s k rest hk hopen hq
  have hinside : ∀ u ∈ List.replicate k Turn.block, u.insideOperation = true := fun u hu => by
    rw [List.eq_of_mem_replicate hu]
    rfl
  have hcount : (List.replicate k Turn.block).count .block = k := List.count_replicate_self
  obtain ⟨t, hrun, hprogress, hrest⟩ := run_operation hopen hq hinside (by rwa [hcount])
  rw [hcount] at hprogress
  rw [List.length_replicate] at hrun
  have hreset : step t = .next ((t.setSchedule rest).clearResult.setPh phIdle) := step_of_schedule hrest
  have hlength : (([0, 1, 2, 3] : List SubIndex).take k).length ≤ k := List.length_take_le ..
  refine ⟨_, run_add_one hrun hreset, rfl, rfl, hprogress.log, hprogress.page, ?_, hprogress.later⟩
  have hpage : ((t.setSchedule rest).clearResult.setPh phIdle).page = (s.progressAt k).data := hprogress.page
  rw [hpage]
  exact (bitDifference_processPage_le config s.page s.stored s.computed
    (List.Nodup.sublist (List.take_sublist k _) (by decide))).trans hlength

end Sys2Proof.Machine
end
